-- ==== Sys2Proof/Word.lean ====
section
/-! DEFINITION. The words the hardware works on (00_scope.md R5, R6). -/

namespace Sys2Proof

/-- One stream symbol or key character: `SYM_W` = 8 bits (R5, decision D2). -/
abbrev Sym := BitVec 8

/-- One answer of the random source: `RATE_W` = 16 bits (R5, R122). -/
abbrev DrawValue := BitVec 16

/-- The error-rate threshold: `RATE_W + 1` = 17 bits (R24). -/
abbrev Rate := BitVec 17

end Sys2Proof
end

