-- ==== Sys2Proof/Config.lean ====
section
/-! DEFINITION. The parameters of 00_scope.md R5: the fixed ones as numerals, the OPEN ones and the free values of
the random source as constants nothing can evaluate. -/

namespace Sys2Proof

/-- The OPEN parameters of R5: the capacity of IBUF and of OBUF, and of KBUF. -/
structure Params where
  /-- `N_MAX`, in symbols. -/
  nMax : Nat
  /-- `K_MAX`, in characters. -/
  kMax : Nat
  deriving DecidableEq, Repr

/-- The bounds R5 sets on the OPEN parameters: `N_MAX` at least 11, `K_MAX` at least 1. -/
def Params.legal (p : Params) : Bool := decide (11 ≤ p.nMax) && decide (1 ≤ p.kMax)

namespace Config

/-- `SYM0`, the code of the character '0' (R5). -/
def sym0 : Sym := 0x30#8
/-- `SYM1`, the code of the character '1' (R5). -/
def sym1 : Sym := 0x31#8
/-- `RATE_W`, the fraction bits of the rate (R5). -/
def rateW : Nat := 16

/-- DESIGN CHOICE (log 1): how far this implementation's `N_MAX` lies above the least value R5 allows. Safe: no body. -/
opaque spareSymbols : Nat
/-- DESIGN CHOICE (log 1): how far this implementation's `K_MAX` lies above the least value R5 allows. Safe: no body. -/
opaque spareKeyChars : Nat

/-- The capacities of the implementation that `State.reset` describes: any that R5 admits. -/
def params : Params := { nMax := spareSymbols + 11, kMax := spareKeyChars + 1 }

/-- The answer of the random source to its `n`-th draw where nobody has fixed one: a free input under no law (R122,
U15; log 3). Safe: no body. -/
opaque freeDraw : Nat → DrawValue

end Config
end Sys2Proof
end

