-- ==== Sys2Proof/Syntax.lean ====
section
/-! DEFINITION. The commands of CORE, one constructor per row of spec/opcode_table.json (30_encoding.md R61, R63), and
the host's notation for them (R71). -/

namespace Sys2Proof

/-- A command as decoded from the byte written to `CMD` (R60, R63). No command has an explicit operand (R66): a
constructor's arguments are the bits of the byte that its row leaves open. -/
inductive Instr where
  /-- ENC, `ParityCodec.Encode` (R85). -/
  | enc
  /-- VAL, `ParityCodec.Validate` (R91). -/
  | val
  /-- STRIP, strip-parity (R95). -/
  | strip
  /-- ENCR.VIGENERE (R105). -/
  | encrVigenere
  /-- ENCR.CAESAR (R109). -/
  | encrCaesar
  /-- DECR.VIGENERE (R106). -/
  | decrVigenere
  /-- DECR.CAESAR (R110). -/
  | decrCaesar
  /-- SIM, `CorruptionSimulator.Simulate` (R127). -/
  | sim
  /-- ENCR.UNREG: `OP` 4 with `CID` 2 to 15 (R111). -/
  | encrUnreg (cid : BitVec 4)
  /-- DECR.UNREG: `OP` 5 with `CID` 2 to 15 (R111). -/
  | decrUnreg (cid : BitVec 4)
  /-- ILLEGAL.OP0: `OP` 0, any `CID` (R64). -/
  | illegalOp0 (cid : BitVec 4)
  /-- ILLEGAL.OP7: `OP` 7, any `CID` (R64). -/
  | illegalOp7 (cid : BitVec 4)
  /-- ILLEGAL.OP8_15: `OP` 8 to 15, whose low three bits are `low`, any `CID` (R64). -/
  | illegalOp8 (cid : BitVec 4) (low : BitVec 3)
  /-- ILLEGAL.ENC_CID: `OP` 1 with `CID` not 0 (R64). -/
  | illegalEncCid (cid : BitVec 4)
  /-- ILLEGAL.VAL_CID: `OP` 2 with `CID` not 0 (R64). -/
  | illegalValCid (cid : BitVec 4)
  /-- ILLEGAL.STRIP_CID: `OP` 3 with `CID` not 0 (R64). -/
  | illegalStripCid (cid : BitVec 4)
  /-- ILLEGAL.SIM_CID: `OP` 6 with `CID` not 0 (R64). -/
  | illegalSimCid (cid : BitVec 4)
  deriving DecidableEq, Repr

/-- The host's notation for a command (R71): a mnemonic alone, `ENCR.n` or `DECR.n`, or the raw byte `CMD b`. The
number `n` of R71 runs from 2 to 15; here it is given as `n - 2`. -/
inductive HostCommand where
  | enc
  | val
  | strip
  | encrVigenere
  | encrCaesar
  | decrVigenere
  | decrCaesar
  | sim
  | encrN (nMinus2 : Fin 14)
  | decrN (nMinus2 : Fin 14)
  | raw (b : BitVec 8)
  deriving DecidableEq, Repr

end Sys2Proof
end

