-- ==== Sys2Proof/WellFormed.lean ====
section
/-! DEFINITION. Which terms of `Instr` stand for a command byte: the `constraint` column of spec/opcode_table.json
(30_encoding.md R63). -/

namespace Sys2Proof

/-- An unregistered cipher identifier is 2 to 15 (R65). -/
def unregistered (cid : BitVec 4) : Bool := decide (2 ≤ cid.toNat)

/-- The constraint of each row: `CID >= 2` for the two UNREG rows, `CID != 0` for the four ILLEGAL rows of a defined
`OP`, none for the others (R63). -/
def Instr.wf : Instr → Bool
  | .enc => true
  | .val => true
  | .strip => true
  | .encrVigenere => true
  | .encrCaesar => true
  | .decrVigenere => true
  | .decrCaesar => true
  | .sim => true
  | .encrUnreg cid => unregistered cid
  | .decrUnreg cid => unregistered cid
  | .illegalOp0 _ => true
  | .illegalOp7 _ => true
  | .illegalOp8 _ _ => true
  | .illegalEncCid cid => cid != 0#4
  | .illegalValCid cid => cid != 0#4
  | .illegalStripCid cid => cid != 0#4
  | .illegalSimCid cid => cid != 0#4

end Sys2Proof
end

