-- ==== Sys2Proof/Decode.lean ====
section
/-! DEFINITION. Decoding the command byte (30_encoding.md R60 to R65), then encoding, the command map as mask and match
rows, and the host's mnemonics as bytes (R71). -/

namespace Sys2Proof

/-- The field `OP` = bits 3:0 of the command byte (R60). -/
def opField (b : BitVec 8) : BitVec 4 := b.extractLsb' 0 4

/-- The field `CID` = bits 7:4 of the command byte (R60). -/
def cidField (b : BitVec 8) : BitVec 4 := b.extractLsb' 4 4

/-- The command a byte names. Total: every one of the 256 values decodes to exactly one row (R62, R63). -/
def decodeByte (b : BitVec 8) : Instr :=
  let cid := cidField b
  match (opField b).toNat with
  | 0 => .illegalOp0 cid
  | 1 => if cid = 0#4 then .enc else .illegalEncCid cid
  | 2 => if cid = 0#4 then .val else .illegalValCid cid
  | 3 => if cid = 0#4 then .strip else .illegalStripCid cid
  | 4 => if cid = 0#4 then .encrVigenere else if cid = 1#4 then .encrCaesar else .encrUnreg cid
  | 5 => if cid = 0#4 then .decrVigenere else if cid = 1#4 then .decrCaesar else .decrUnreg cid
  | 6 => if cid = 0#4 then .sim else .illegalSimCid cid
  | 7 => .illegalOp7 cid
  | _ => .illegalOp8 cid (b.extractLsb' 0 3)

/-- Why a list of bytes names no command: a command is one byte (R60), and every byte is a command. -/
inductive DecodeError where
  /-- There is no byte to decode. -/
  | noByte
  deriving DecidableEq, Repr

/-- Decode the first command of a list of bytes and hand back the rest (R60: one length, 8 bits). -/
def decode : List (BitVec 8) → Except DecodeError (Instr × List (BitVec 8))
  | [] => .error .noByte
  | b :: rest => .ok (decodeByte b, rest)

/-- The first `n` bytes of the number `w`, the lowest first. -/
def tableBytes : Nat → Nat → List (BitVec 8)
  | 0, _ => []
  | n + 1, w => BitVec.ofNat 8 w :: tableBytes n (w / 256)

/-- What the decoder reads from a table word of `nbits` bits; `none` where it refuses. -/
def decodeTableWord (nbits w : Nat) : Option Instr :=
  match decode (tableBytes (nbits / 8) w) with
  | .ok (i, _) => some i
  | .error _ => none

/-- The byte with fields `CID` and `OP` (R60). -/
def commandByte (cid op : BitVec 4) : BitVec 8 := cid ++ op

/-- The byte of a command (R63). -/
def encodeByte : Instr → BitVec 8
  | .enc => commandByte 0#4 1#4
  | .val => commandByte 0#4 2#4
  | .strip => commandByte 0#4 3#4
  | .encrVigenere => commandByte 0#4 4#4
  | .encrCaesar => commandByte 1#4 4#4
  | .decrVigenere => commandByte 0#4 5#4
  | .decrCaesar => commandByte 1#4 5#4
  | .sim => commandByte 0#4 6#4
  | .encrUnreg cid => commandByte cid 4#4
  | .decrUnreg cid => commandByte cid 5#4
  | .illegalOp0 cid => commandByte cid 0#4
  | .illegalOp7 cid => commandByte cid 7#4
  | .illegalOp8 cid low => commandByte cid (1#1 ++ low)
  | .illegalEncCid cid => commandByte cid 1#4
  | .illegalValCid cid => commandByte cid 2#4
  | .illegalStripCid cid => commandByte cid 3#4
  | .illegalSimCid cid => commandByte cid 6#4

/-- The words of a command: one byte. -/
def encode (i : Instr) : List (BitVec 8) := [encodeByte i]

/-- A row of the command map: a byte `b` belongs to it when `(b & mask) = match` and its `CID` is at least `minCid` (R63:
`CID >= 2` for UNREG, `CID != 0` for the ILLEGAL rows of a defined `OP`). -/
structure MapRow where
  mnemonic : String
  matchBits : BitVec 8
  mask : BitVec 8
  minCid : Nat
  deriving DecidableEq, Repr

/-- The 17 rows of the command map, in the order of spec/opcode_table.json (R63). -/
def commandMap : List MapRow := [
  { mnemonic := "ENC", matchBits := 0x01#8, mask := 0xFF#8, minCid := 0 },
  { mnemonic := "VAL", matchBits := 0x02#8, mask := 0xFF#8, minCid := 0 },
  { mnemonic := "STRIP", matchBits := 0x03#8, mask := 0xFF#8, minCid := 0 },
  { mnemonic := "ENCR.VIGENERE", matchBits := 0x04#8, mask := 0xFF#8, minCid := 0 },
  { mnemonic := "ENCR.CAESAR", matchBits := 0x14#8, mask := 0xFF#8, minCid := 0 },
  { mnemonic := "DECR.VIGENERE", matchBits := 0x05#8, mask := 0xFF#8, minCid := 0 },
  { mnemonic := "DECR.CAESAR", matchBits := 0x15#8, mask := 0xFF#8, minCid := 0 },
  { mnemonic := "SIM", matchBits := 0x06#8, mask := 0xFF#8, minCid := 0 },
  { mnemonic := "ENCR.UNREG", matchBits := 0x04#8, mask := 0x0F#8, minCid := 2 },
  { mnemonic := "DECR.UNREG", matchBits := 0x05#8, mask := 0x0F#8, minCid := 2 },
  { mnemonic := "ILLEGAL.OP0", matchBits := 0x00#8, mask := 0x0F#8, minCid := 0 },
  { mnemonic := "ILLEGAL.OP7", matchBits := 0x07#8, mask := 0x0F#8, minCid := 0 },
  { mnemonic := "ILLEGAL.OP8_15", matchBits := 0x08#8, mask := 0x08#8, minCid := 0 },
  { mnemonic := "ILLEGAL.ENC_CID", matchBits := 0x01#8, mask := 0x0F#8, minCid := 1 },
  { mnemonic := "ILLEGAL.VAL_CID", matchBits := 0x02#8, mask := 0x0F#8, minCid := 1 },
  { mnemonic := "ILLEGAL.STRIP_CID", matchBits := 0x03#8, mask := 0x0F#8, minCid := 1 },
  { mnemonic := "ILLEGAL.SIM_CID", matchBits := 0x06#8, mask := 0x0F#8, minCid := 1 }]

/-- Does the byte belong to the row? (R63) -/
def MapRow.holds (r : MapRow) (b : BitVec 8) : Bool :=
  (b &&& r.mask) == r.matchBits && decide (r.minCid ≤ (cidField b).toNat)

/-- The mnemonic of a command, as the table spells it (R71). -/
def Instr.mnemonic : Instr → String
  | .enc => "ENC"
  | .val => "VAL"
  | .strip => "STRIP"
  | .encrVigenere => "ENCR.VIGENERE"
  | .encrCaesar => "ENCR.CAESAR"
  | .decrVigenere => "DECR.VIGENERE"
  | .decrCaesar => "DECR.CAESAR"
  | .sim => "SIM"
  | .encrUnreg _ => "ENCR.UNREG"
  | .decrUnreg _ => "DECR.UNREG"
  | .illegalOp0 _ => "ILLEGAL.OP0"
  | .illegalOp7 _ => "ILLEGAL.OP7"
  | .illegalOp8 _ _ => "ILLEGAL.OP8_15"
  | .illegalEncCid _ => "ILLEGAL.ENC_CID"
  | .illegalValCid _ => "ILLEGAL.VAL_CID"
  | .illegalStripCid _ => "ILLEGAL.STRIP_CID"
  | .illegalSimCid _ => "ILLEGAL.SIM_CID"

/-- The byte a command of the host's notation writes (R71): `ENCR.n` is `16*n + 4`, `DECR.n` is `16*n + 5`. -/
def assemble : HostCommand → BitVec 8
  | .enc => 0x01#8
  | .val => 0x02#8
  | .strip => 0x03#8
  | .encrVigenere => 0x04#8
  | .encrCaesar => 0x14#8
  | .decrVigenere => 0x05#8
  | .decrCaesar => 0x15#8
  | .sim => 0x06#8
  | .encrN k => BitVec.ofNat 8 (16 * (k.val + 2) + 4)
  | .decrN k => BitVec.ofNat 8 (16 * (k.val + 2) + 5)
  | .raw b => b

end Sys2Proof
end

