-- ==== Sys2Proof/Machine/State.lean ====
section
/-! DEFINITION. The state of the machine as plain data: CORE's registers and buffers (10_state.md), and beside them the
two agents it meets, the host and the random source (00_scope.md section 6). -/

namespace Sys2Proof.Machine

/-- The three buffers (10_state.md R29). -/
inductive Buffer where
  /-- `IBUF`, the input bitstream (R25). -/
  | ibuf
  /-- `KBUF`, the cipher key (R26). -/
  | kbuf
  /-- `OBUF`, the output bitstream (R27). -/
  | obuf
  deriving DecidableEq, Repr

/-- The contents of one buffer: the cells that hold a value, by rising index, each index once. A cell that is not
listed holds no value (R28). -/
abbrev Memory := List Host.Cell

/-- The errors a command can report in `STATUS.ERR` (60_exceptions.md R135). -/
inductive ErrorName where
  /-- Code 1 (R136). -/
  | emptyInputError
  /-- Code 2 (R137). -/
  | charsetError
  /-- Code 3 (R138). -/
  | lengthError
  /-- Code 4 (R139). -/
  | keyError
  /-- Code 5 (R140). -/
  | unknownCipherError
  /-- Code 6 (R141). -/
  | rangeError
  /-- Code 7 (R142). -/
  | illegalCommand
  deriving DecidableEq, Repr

/-- One access of the host, or one act of the platform (20_memory.md R41, R53; 70_reset_and_hazards.md R160, R164). -/
inductive Access where
  /-- Read the register with this number (R13). -/
  | readRegister (number : Nat)
  /-- Write the register with this number (R13); a write of register 0 starts a command (R14). -/
  | writeRegister (number : Nat) (value : Nat)
  /-- `MemRead` of one cell (R40, R41). -/
  | readCell (buffer : Buffer) (index : Nat)
  /-- `MemWrite` of one cell (R40, R41). -/
  | writeCell (buffer : Buffer) (index : Nat) (value : Sym)
  /-- Reset arrives between two accesses (R160). -/
  | reset
  /-- The host writes the command byte, and reset arrives during the command, after at most `draws` of its draws were
  answered (R160; log 9). -/
  | resetDuring (byte : BitVec 8) (draws : Nat)
  /-- The platform connects a random source, or seeds the one it has: these are its next answers (R72, R164, R169). -/
  | connectSource (answers : List DrawValue)
  deriving DecidableEq, Repr

/-- The host's pseudo-operations (30_encoding.md R73) and its mnemonics (R71): each is a fixed sequence of accesses. -/
inductive Pseudo where
  /-- `LDI "s"`. -/
  | ldi (stream : List Sym)
  /-- `LDK "s"`. -/
  | ldk (key : List Sym)
  /-- `LDR v`. -/
  | ldr (value : Nat)
  /-- `MVO`. -/
  | mvo
  /-- `RDO`. -/
  | rdo
  /-- `RDS`. -/
  | rds
  /-- A command by its mnemonic (R71). -/
  | issue (command : HostCommand)
  deriving DecidableEq, Repr

/-- One item of a host program (R76: "a finite sequence of host accesses and pseudo-operations"). -/
inductive HostOp where
  | access (a : Access)
  | pseudo (p : Pseudo)
  deriving DecidableEq, Repr

/-- The host as an agent: what it has still to do, and what its reads were answered (R53; logs 4, 5). -/
structure HostAgent where
  /-- The items still to come, the next one first. -/
  pending : List HostOp
  /-- The values read so far, oldest first. -/
  heard : List Nat
  deriving DecidableEq, Repr

/-- The random source as an agent behind its port (60_exceptions.md R153; log 3). -/
structure RandomSource where
  /-- Answers already fixed for the next draws, the next one first. -/
  script : List DrawValue
  /-- How many draws the source has answered. -/
  asked : Nat
  deriving DecidableEq, Repr

/-- The machine: CORE's registers and buffers (10_state.md R11, R13, R25 to R27), then the model's own fields. -/
structure State where
  /-- The OPEN parameters this machine was built with (R5; log 1). Nothing changes them. -/
  params : Params
  /-- `CMD`, register 0 (R14). -/
  cmd : BitVec 8
  /-- `STATUS`, register 1 (R15). -/
  status : BitVec 8
  /-- `ILEN`, register 2 (R21). -/
  ilen : Nat
  /-- `KLEN`, register 3 (R22). -/
  klen : Nat
  /-- `OLEN`, register 4 (R23). -/
  olen : Nat
  /-- `RATE`, register 5 (R24). -/
  rate : Rate
  /-- `IBUF` (R25). -/
  ibuf : Memory
  /-- `KBUF` (R26). -/
  kbuf : Memory
  /-- `OBUF` (R27). -/
  obuf : Memory
  /-- The random source, no part of CORE (R31). -/
  rng : RandomSource
  /-- The host, no part of CORE (R53). -/
  host : HostAgent
  deriving DecidableEq, Repr

/-- Reasons for CORE to stop with a fault: none. CORE "has no traps in the processor sense" (60_exceptions.md): its
errors are result codes of commands that complete (R135, R147). Nobody raises a fault (log 12); safe. -/
inductive Fault where
  deriving DecidableEq, Repr

/-- The host contract violations of 70_reset_and_hazards.md R165, which "the model refuses"; each refusal is safe: the
model gives the access no meaning. -/
inductive Refusal where
  /-- Raised by `exec` for a command that has no meaning yet (no command of this model). Safe. -/
  | notModelled (mnemonic : String)
  /-- R165 (a): raised by a write of `ILEN` above `N_MAX` or of `KLEN` above `K_MAX`. Safe. -/
  | lengthAboveCapacity
  /-- R165 (b): raised by an access to a buffer cell at or above the buffer's capacity. Safe. -/
  | noSuchCell
  /-- R165 (b): raised by an access to a register number above 5. Safe. -/
  | noSuchRegister
  /-- R165 (c): raised by a command whose operand region contains a cell that holds no value. Safe. -/
  | operandCellHoldsNoValue
  /-- R165 (d): raised by the host's read of a cell that holds no value. Safe. -/
  | cellHoldsNoValue
  /-- R165 (e): raised by ENC when `11 * ceil(ILEN/7) > N_MAX`. Safe. -/
  | encodeOutputDoesNotFit
  /-- R165 (f): raised by a write of a value wider than the register. Safe. -/
  | valueWiderThanRegister
  deriving DecidableEq, Repr

/-- The state right after reset of a machine built with the parameters `p` (10_state.md R33, 70_reset_and_hazards.md
R161): the registers 0, no buffer cell with a value. The last two fields are the model's own (logs 3, 4): no answer of the
random source is fixed, and the host has nothing to do. -/
def State.resetWith (p : Params) : State where
  params := p
  cmd := 0x00#8
  status := 0x00#8
  ilen := 0
  klen := 0
  olen := 0
  rate := 0#17
  ibuf := []
  kbuf := []
  obuf := []
  rng := { script := [], asked := 0 }
  host := { pending := [], heard := [] }

/-- The state right after reset (R33, R161), for any capacities that R5 admits (log 1). -/
def State.reset : State := State.resetWith Config.params

end Sys2Proof.Machine
end

