-- ==== Sys2Proof/Machine/Flags.lean ====
section
/-! DEFINITION. The byte `STATUS` and its fields (10_state.md R15, R16, R19, R20), and the error codes (60_exceptions.md
R135). -/

namespace Sys2Proof.Machine

/-- The code of an error in `STATUS.ERR` (R135). -/
def errorCode : ErrorName → BitVec 4
  | .emptyInputError => 1#4
  | .charsetError => 2#4
  | .lengthError => 3#4
  | .keyError => 4#4
  | .unknownCipherError => 5#4
  | .rangeError => 6#4
  | .illegalCommand => 7#4

/-- `STATUS` with the given fields: `ERR` in bits 3:0, `V` in bit 4, `DET` in bit 5, bits 7:6 zero (R15). -/
def statusByte (err : BitVec 4) (v det : Bool) : BitVec 8 :=
  0#2 ++ BitVec.ofBool det ++ BitVec.ofBool v ++ err

/-- `STATUS` of a command that succeeded, with its flags (R16, R148). -/
def okStatus (v det : Bool) : BitVec 8 := statusByte 0#4 v det

/-- `STATUS` of a command that failed: its code, both flags 0 (R16, R147). -/
def errorStatus (e : ErrorName) : BitVec 8 := statusByte (errorCode e) false false

/-- The field `ERR` of `STATUS` (R15). -/
def errField (status : BitVec 8) : BitVec 4 := status.extractLsb' 0 4

/-- The flag `V` of `STATUS` (R15, R19). -/
def vFlag (status : BitVec 8) : Bool := status.getLsbD 4

/-- The flag `DET` of `STATUS` (R15, R20). -/
def detFlag (status : BitVec 8) : Bool := status.getLsbD 5

/-- The reserved bits 7:6 of `STATUS` (R15). -/
def reservedBits (status : BitVec 8) : BitVec 2 := status.extractLsb' 6 2

end Sys2Proof.Machine
end

