-- ==== Sys2Proof/Machine/Ops.lean ====
section
/-! DEFINITION. The operations over buffers, registers and the random source that the meanings and the host's accesses
share, and the two commits of a command (60_exceptions.md R147, R148). -/

namespace Sys2Proof.Machine

/-! ### Buffers (20_memory.md R40; 10_state.md R28) -/

/-- `MemRead`: the symbol in cell `i`, `none` for a cell that holds no value (R28, R40). -/
def Memory.read : Memory → Nat → Option Sym
  | [], _ => none
  | (a, v) :: m, i => if a = i then some v else Memory.read m i

/-- `MemWrite`: cell `i` holds `v` from now on (R40). The cells stay listed by rising index. -/
def Memory.write : Memory → Nat → Sym → Memory
  | [], i, v => [(i, v)]
  | (a, w) :: m, i, v =>
    if i < a then (i, v) :: (a, w) :: m
    else if i = a then (i, v) :: m
    else (a, w) :: Memory.write m i v

/-- The cells `i` to `i + n - 1` as a stream, `none` when one of them holds no value. -/
def Memory.readRegion (m : Memory) : Nat → Nat → Option (List Sym)
  | _, 0 => some []
  | i, n + 1 =>
    match Memory.read m i, Memory.readRegion m (i + 1) n with
    | some v, some vs => some (v :: vs)
    | _, _ => none

/-- A buffer whose cells from `i` on hold the stream and whose other cells hold no value. -/
def Memory.ofStreamAt : Nat → List Sym → Memory
  | _, [] => []
  | i, v :: vs => (i, v) :: Memory.ofStreamAt (i + 1) vs

/-- `OBUF` as a commit leaves it: the output in the cells from 0 on, no value elsewhere (R28 (b), R148). -/
def Memory.ofStream (out : List Sym) : Memory := Memory.ofStreamAt 0 out

/-- Every listed index is at least `lo`, and the indices rise strictly. -/
def Memory.risingFrom : Nat → Memory → Bool
  | _, [] => true
  | lo, (a, _) :: m => decide (lo ≤ a) && Memory.risingFrom (a + 1) m

/-- The canonical form of a buffer's contents: indices strictly rising. (An unlisted cell reads as no value, which no
entry equals.) -/
def Memory.wf (m : Memory) : Bool := Memory.risingFrom 0 m

/-- Only cells below the capacity are listed (R40). -/
def Memory.within (capacity : Nat) (m : Memory) : Bool := m.all fun c => decide (c.1 < capacity)

/-- The capacity of a buffer in cells (R5, R25 to R27). -/
def capacity (p : Params) : Buffer → Nat
  | .ibuf => p.nMax
  | .kbuf => p.kMax
  | .obuf => p.nMax

/-- The contents of a buffer (R29). -/
def State.buffer (s : State) : Buffer → Memory
  | .ibuf => s.ibuf
  | .kbuf => s.kbuf
  | .obuf => s.obuf

/-! ### Updates of one register, buffer or agent -/

/-- `CMD <- w` (R14, R62). -/
def State.setCmd (s : State) (w : BitVec 8) : State := { s with cmd := w }
/-- `ILEN <- n` (R21). -/
def State.setIlen (s : State) (n : Nat) : State := { s with ilen := n }
/-- `KLEN <- n` (R22). -/
def State.setKlen (s : State) (n : Nat) : State := { s with klen := n }
/-- `RATE <- r` (R24). -/
def State.setRate (s : State) (r : Rate) : State := { s with rate := r }
/-- The host's `MemWrite(IBUF, i, v)` (R41). -/
def State.writeIbuf (s : State) (i : Nat) (v : Sym) : State := { s with ibuf := Memory.write s.ibuf i v }
/-- The host's `MemWrite(KBUF, i, v)` (R41). -/
def State.writeKbuf (s : State) (i : Nat) (v : Sym) : State := { s with kbuf := Memory.write s.kbuf i v }
/-- The random source moved on (R153). -/
def State.setSource (s : State) (r : RandomSource) : State := { s with rng := r }
/-- What the host still has to do. -/
def State.setPending (s : State) (ops : List HostOp) : State := { s with host := { s.host with pending := ops } }
/-- The host's read is answered `v` (log 5). -/
def State.hear (s : State) (v : Nat) : State := { s with host := { s.host with heard := s.host.heard ++ [v] } }

/-! ### The two commits -/

/-- The error commit, the one way a command reports an error (R147): `OLEN <- 0`, `STATUS <- ` the code with both flags
0, no cell of `OBUF` holds a value, nothing else changes. CORE is at once ready for the next command: nothing was saved and
there is nothing to return from (R149). -/
def errorCommit (e : ErrorName) (s : State) : State :=
  { s with olen := 0, status := errorStatus e, obuf := [] }

/-- The success commit (R148): the output in `OBUF[0 .. n)`, `OLEN <- n`, `STATUS` with `ERR = 0` and the command's own
flag. -/
def successCommit (out : List Sym) (v det : Bool) (s : State) : State :=
  { s with olen := out.length, status := okStatus v det, obuf := Memory.ofStream out }

/-- The commit of a command whose result is a stream or an error: R147 or R148 with both flags 0. -/
def commitStream (r : Except ErrorName (List Sym)) (s : State) : State :=
  match r with
  | .ok out => successCommit out false false s
  | .error e => errorCommit e s

/-! ### The random source (60_exceptions.md R153) -/

/-- `Draw()`: the source answers one value (R122, R153): the next one fixed for it, else a free value (log 3). -/
def draw (r : RandomSource) : DrawValue × RandomSource :=
  match r.script with
  | [] => (Config.freeDraw r.asked, { script := [], asked := r.asked + 1 })
  | u :: us => (u, { script := us, asked := r.asked + 1 })

/-- The source after `n` draws. -/
def sourceAfter (n : Nat) (r : RandomSource) : RandomSource :=
  { script := r.script.drop n, asked := r.asked + n }

/-- The next `n` answers of the source, in the order it gives them. -/
def nextDraws : Nat → RandomSource → List DrawValue
  | 0, _ => []
  | n + 1, r => (draw r).1 :: nextDraws n (draw r).2

/-! ### Registers (10_state.md R13) -/

/-- `LEN_W`, the width of the length registers: the smallest `w` with `2^w > max(N_MAX, K_MAX)` (R5). -/
def lenW (p : Params) : Nat := Nat.log2 (max p.nMax p.kMax) + 1

/-- The width of the register with the given number, `none` for a number that names no register (R13). -/
def registerWidth (p : Params) : Nat → Option Nat
  | 0 => some 8
  | 1 => some 8
  | 2 => some (lenW p)
  | 3 => some (lenW p)
  | 4 => some (lenW p)
  | 5 => some 17
  | _ => none

/-- The value the host reads from the register with the given number (R13, R14, R15). -/
def readRegister (s : State) : Nat → Option Nat
  | 0 => some s.cmd.toNat
  | 1 => some s.status.toNat
  | 2 => some s.ilen
  | 3 => some s.klen
  | 4 => some s.olen
  | 5 => some s.rate.toNat
  | _ => none

/-! ### Reset (70_reset_and_hazards.md R160 to R162) -/

/-- Reset of CORE: every register and buffer as R161 says. The parameters are the machine's, and the random source and the
host are not affected (R161, R31). -/
def resetCore (s : State) : State :=
  { State.resetWith s.params with rng := s.rng, host := s.host }

end Sys2Proof.Machine
end

