-- ==== Sys2Proof/Machine/Operands.lean ====
section
/-! DEFINITION. Operand assembly (30_encoding.md section 4, R66 to R70): the stream and the key as the buffers hold them,
symbols as bits, the key as bits and as an integer. -/

namespace Sys2Proof.Machine

/-! ### Symbols and bits (00_scope.md R6; 30_encoding.md R70) -/

/-- `isbit(c)`: the symbol is `SYM0` or `SYM1` (R6). -/
def isBit (c : Sym) : Bool := c == Config.sym0 || c == Config.sym1

/-- `bitval(c)`: 0 for `SYM0`, 1 for `SYM1` (R6); on a symbol that is a bit, its bit 0 (R70). -/
def bitVal (c : Sym) : Bool := c.getLsbD 0

/-- `sym(b)`: `SYM0 + b` (R6). -/
def symOf (b : Bool) : Sym := Config.sym0 + BitVec.setWidth 8 (BitVec.ofBool b)

/-- Every symbol of the stream is a bit (R137). -/
def allBits (bits : List Sym) : Bool := bits.all isBit

/-! ### Operand regions (R66; 10_state.md R28) -/

/-- The input stream `IBUF[0 .. ILEN)`; `none` when a cell of the region holds no value (R28). -/
def inputStream (s : State) : Option (List Sym) := Memory.readRegion s.ibuf 0 s.ilen

/-- The key `KBUF[0 .. KLEN)`; `none` when a cell of the region holds no value (R28). -/
def inputKey (s : State) : Option (List Sym) := Memory.readRegion s.kbuf 0 s.klen

/-- The output stream `OBUF[0 .. OLEN)` (R23). -/
def outputStream (s : State) : Option (List Sym) := Memory.readRegion s.obuf 0 s.olen

/-- Run a command on its input stream; refused over a cell that holds no value (70_reset_and_hazards.md R165 (c)). -/
def withStream (s : State) (run : List Sym → Host.Outcome State Fault Refusal) : Host.Outcome State Fault Refusal :=
  match inputStream s with
  | some bits => run bits
  | none => .refused .operandCellHoldsNoValue

/-- Run a command on its key; refused over a cell that holds no value (R165 (c)). -/
def withKey (s : State) (run : List Sym → Host.Outcome State Fault Refusal) : Host.Outcome State Fault Refusal :=
  match inputKey s with
  | some key => run key
  | none => .refused .operandCellHoldsNoValue

/-! ### The key as bits (R67) -/

/-- The eight bits of a key character, the most significant first (20_memory.md R45). -/
def charBits (c : Sym) : List Bool := (List.range 8).map fun j => c.getLsbD (7 - j)

/-- `KeyBits(key)`: the bits of the characters, concatenated (R67). -/
def keyBits (key : List Sym) : List Bool := key.flatMap charBits

/-! ### The key as an integer (R68) -/

/-- A decimal digit, code 0x30 to 0x39 (R68). -/
def isDigit (c : Sym) : Bool := decide (0x30#8 ≤ c) && decide (c ≤ 0x39#8)

/-- The key without its optional sign, `'+'` = 0x2B or `'-'` = 0x2D (R68). -/
def stripSign : List Sym → List Sym
  | [] => []
  | c :: cs => if c = 0x2B#8 ∨ c = 0x2D#8 then cs else c :: cs

/-- `ParseShift(key)`: an optional sign, then one or more decimal digits and nothing else; the shift is bit 0 of the last
digit's code (R68). -/
def parseShift (key : List Sym) : Except ErrorName Bool :=
  match (stripSign key).getLast? with
  | none => .error .keyError
  | some last => if (stripSign key).all isDigit then .ok (last.getLsbD 0) else .error .keyError

end Sys2Proof.Machine
end

