-- ==== Sys2Proof/Machine/ParityCodec.lean ====
section
/-! DEFINITION. ParityCodec (40_parity_codec.md): the block code, and the commands ENC, VAL and STRIP. -/

namespace Sys2Proof.Machine

/-! ### The block code (R80 to R83) -/

/-- The eleven bits of a codeword by the names of their positions (R80): 1=p1, 2=p2, 3=d0, 4=p4, 5=d1, 6=d2, 7=d3, 8=p8,
9=d4, 10=d5, 11=d6. -/
structure Codeword where
  p1 : Bool
  p2 : Bool
  d0 : Bool
  p4 : Bool
  d1 : Bool
  d2 : Bool
  d3 : Bool
  p8 : Bool
  d4 : Bool
  d5 : Bool
  d6 : Bool
  deriving DecidableEq, Repr

/-- The bits of a codeword, position 1 first (R43, R80). -/
def codewordBits (c : Codeword) : List Bool :=
  [c.p1, c.p2, c.d0, c.p4, c.d1, c.d2, c.d3, c.p8, c.d4, c.d5, c.d6]

/-- The data bits of a codeword, in their original order (R80). -/
def codewordData (c : Codeword) : List Bool := [c.d0, c.d1, c.d2, c.d3, c.d4, c.d5, c.d6]

/-- `encode_block`: the codeword of seven data bits (R80), its parity bits by the formulas of R81. -/
def encodeBlock (d0 d1 d2 d3 d4 d5 d6 : Bool) : Codeword where
  p1 := d0 ^^ d1 ^^ d3 ^^ d4 ^^ d6
  p2 := d0 ^^ d2 ^^ d3 ^^ d5 ^^ d6
  d0 := d0
  p4 := d1 ^^ d2 ^^ d3
  d1 := d1
  d2 := d2
  d3 := d3
  p8 := d4 ^^ d5 ^^ d6
  d4 := d4
  d5 := d5
  d6 := d6

/-- `syndrome(c)`, a number from 0 to 15 (R82). -/
def syndrome (c : Codeword) : Nat :=
  let s1 := c.p1 ^^ c.d0 ^^ c.d1 ^^ c.d3 ^^ c.d4 ^^ c.d6
  let s2 := c.p2 ^^ c.d0 ^^ c.d2 ^^ c.d3 ^^ c.d5 ^^ c.d6
  let s4 := c.p4 ^^ c.d1 ^^ c.d2 ^^ c.d3
  let s8 := c.p8 ^^ c.d4 ^^ c.d5 ^^ c.d6
  s1.toNat + 2 * s2.toNat + 4 * s4.toNat + 8 * s8.toNat

/-- `block_valid(c)`: the syndrome is 0 (R82). -/
def blockValid (c : Codeword) : Bool := syndrome c == 0

/-! ### Blocks of a stream (20_memory.md R43) -/

/-- How many data blocks a stream of `n` symbols makes: `ceil(n / 7)` (R43, R84). -/
def dataBlocks (n : Nat) : Nat := (n + 6) / 7

/-- The length of `Encode`'s output for `n` symbols: `11 * ceil(n / 7)` (R84). -/
def encodedLength (n : Nat) : Nat := 11 * dataBlocks n

/-- Data bit `d_j` of block `g`: element `7*g + j`, or 0 past the end of the stream (R43, R84). -/
def dataBit (bits : List Sym) (g j : Nat) : Bool :=
  match bits[7 * g + j]? with
  | some c => bitVal c
  | none => false

/-- The bit at position `k` (from 1) of codeword `g`: element `11*g + k - 1` (R43). -/
def codeBit (prot : List Sym) (g k : Nat) : Bool :=
  match prot[11 * g + k - 1]? with
  | some c => bitVal c
  | none => false

/-- Codeword `g` of a protected stream (R43, R80). -/
def codewordAt (prot : List Sym) (g : Nat) : Codeword where
  p1 := codeBit prot g 1
  p2 := codeBit prot g 2
  d0 := codeBit prot g 3
  p4 := codeBit prot g 4
  d1 := codeBit prot g 5
  d2 := codeBit prot g 6
  d3 := codeBit prot g 7
  p8 := codeBit prot g 8
  d4 := codeBit prot g 9
  d5 := codeBit prot g 10
  d6 := codeBit prot g 11

/-- The codeword of data block `g` of a stream (R84). -/
def encodedBlock (bits : List Sym) (g : Nat) : Codeword :=
  encodeBlock (dataBit bits g 0) (dataBit bits g 1) (dataBit bits g 2) (dataBit bits g 3)
    (dataBit bits g 4) (dataBit bits g 5) (dataBit bits g 6)

/-! ### The functions -/

/-- `Encode` (R84). -/
def encodeStream (bits : List Sym) : Except ErrorName (List Sym) :=
  if bits.length = 0 then .error .emptyInputError
  else if allBits bits = false then .error .charsetError
  else .ok ((List.range (dataBlocks bits.length)).flatMap fun g =>
    (codewordBits (encodedBlock bits g)).map symOf)

/-- The format checks `Validate` and `Strip` share: the length, then the character set (R90, R94; order R145). -/
def protectedChecks (prot : List Sym) : Except ErrorName Unit :=
  if prot.length % 11 ≠ 0 then .error .lengthError
  else if allBits prot = false then .error .charsetError
  else .ok ()

/-- `Validate` (R90): does every codeword match its parity bits? -/
def validateStream (prot : List Sym) : Except ErrorName Bool :=
  match protectedChecks prot with
  | .error e => .error e
  | .ok _ => .ok ((List.range (prot.length / 11)).all fun g => blockValid (codewordAt prot g))

/-- The offsets in a codeword that `Strip` keeps: positions 3, 5, 6, 7, 9, 10, 11 (R94; 20_memory.md R44). -/
def dataOffsets : List Nat := [2, 4, 5, 6, 8, 9, 10]

/-- `Strip` (R94): the data symbols of every block, valid or not. -/
def stripStream (prot : List Sym) : Except ErrorName (List Sym) :=
  match protectedChecks prot with
  | .error e => .error e
  | .ok _ => .ok ((List.range (prot.length / 11)).flatMap fun g =>
      dataOffsets.map fun o => prot.getD (11 * g + o) Config.sym0)

/-! ### The commands -/

/-- ENC (R85). Refused where its output would not fit `OBUF` (20_memory.md R56; R165 (e)). -/
def execEnc (s : State) : Host.Outcome State Fault Refusal :=
  withStream s fun bits =>
    if s.params.nMax < encodedLength s.ilen then .refused .encodeOutputDoesNotFit
    else .next (commitStream (encodeStream bits) s)

/-- VAL (R91): flag `V` is the verdict, `OLEN` is 0. -/
def execVal (s : State) : Host.Outcome State Fault Refusal :=
  withStream s fun prot =>
    match validateStream prot with
    | .ok v => .next (successCommit [] v false s)
    | .error e => .next (errorCommit e s)

/-- STRIP (R95). -/
def execStrip (s : State) : Host.Outcome State Fault Refusal :=
  withStream s fun prot => .next (commitStream (stripStream prot) s)

end Sys2Proof.Machine
end

