-- ==== Sys2Proof/Machine/CorruptionSimulator.lean ====
section
/-! DEFINITION. CorruptionSimulator (42_corruption_simulator.md): the command SIM. -/

namespace Sys2Proof.Machine

/-- `RATE` stands for a rate in `[0, 1]`: it is at most `2^RATE_W` (R121; 30_encoding.md R69). -/
def rateInRange (rate : Rate) : Bool := decide (rate.toNat ≤ 2 ^ Config.rateW)

/-- Position is flipped exactly when its draw is below the rate, as unsigned integers (R123). -/
def flips (u : DrawValue) (rate : Rate) : Bool := decide (u.toNat < rate.toNat)

/-- A symbol after its draw: a flipped bit becomes its complement, a symbol that is not a bit is copied (R124). -/
def corruptSym (u : DrawValue) (rate : Rate) (c : Sym) : Sym :=
  if flips u rate && isBit c then symOf (!bitVal c) else c

/-- The corrupted stream, one draw for each position in ascending order, whatever the rate and the symbol (R120, R122). -/
def corrupt (rate : Rate) : List Sym → RandomSource → List Sym × RandomSource
  | [], r => ([], r)
  | c :: cs, r =>
    (corruptSym (draw r).1 rate c :: (corrupt rate cs (draw r).2).1, (corrupt rate cs (draw r).2).2)

/-- `detected`: false exactly when `Validate(corrupted) = Ok(true)` (R126). -/
def detected (out : List Sym) : Bool :=
  match validateStream out with
  | .ok v => !v
  | .error _ => true

/-- `Simulate` (R120): the corrupted stream, whether validation notices, and the source as the draws leave it. The range
check comes first; where it fails no draw is requested (R121). -/
def simulateStream (prot : List Sym) (rate : Rate) (r : RandomSource) :
    Except ErrorName (List Sym × Bool × RandomSource) :=
  if rateInRange rate = false then .error .rangeError
  else .ok ((corrupt rate prot r).1, detected (corrupt rate prot r).1, (corrupt rate prot r).2)

/-- SIM (R127): flag `DET` is `detected`. -/
def execSim (s : State) : Host.Outcome State Fault Refusal :=
  withStream s fun prot =>
    match simulateStream prot s.rate s.rng with
    | .ok (out, det, r) => .next ((successCommit out false det s).setSource r)
    | .error e => .next (errorCommit e s)

end Sys2Proof.Machine
end

