-- ==== Sys2Proof/Machine/Illegal.lean ====
section
/-! DEFINITION. The 220 bytes that name no operation (30_encoding.md R64): no operand is read, no draw is asked for, and
`IllegalCommand` is committed. -/

namespace Sys2Proof.Machine

/-- ILLEGAL.OP0 (R64). -/
def execIllegalOp0 (_cid : BitVec 4) (s : State) : Host.Outcome State Fault Refusal :=
  .next (errorCommit .illegalCommand s)

/-- ILLEGAL.OP7 (R64). -/
def execIllegalOp7 (_cid : BitVec 4) (s : State) : Host.Outcome State Fault Refusal :=
  .next (errorCommit .illegalCommand s)

/-- ILLEGAL.OP8_15 (R64). -/
def execIllegalOp8 (_cid : BitVec 4) (_low : BitVec 3) (s : State) : Host.Outcome State Fault Refusal :=
  .next (errorCommit .illegalCommand s)

/-- ILLEGAL.ENC_CID (R64). -/
def execIllegalEncCid (_cid : BitVec 4) (s : State) : Host.Outcome State Fault Refusal :=
  .next (errorCommit .illegalCommand s)

/-- ILLEGAL.VAL_CID (R64). -/
def execIllegalValCid (_cid : BitVec 4) (s : State) : Host.Outcome State Fault Refusal :=
  .next (errorCommit .illegalCommand s)

/-- ILLEGAL.STRIP_CID (R64). -/
def execIllegalStripCid (_cid : BitVec 4) (s : State) : Host.Outcome State Fault Refusal :=
  .next (errorCommit .illegalCommand s)

/-- ILLEGAL.SIM_CID (R64). -/
def execIllegalSimCid (_cid : BitVec 4) (s : State) : Host.Outcome State Fault Refusal :=
  .next (errorCommit .illegalCommand s)

end Sys2Proof.Machine
end

