-- ==== Sys2Proof/Machine/StreamCipher.lean ====
section
/-! DEFINITION. StreamCipher (41_stream_cipher.md): the registry of ciphers, the two that are built in, and the commands
ENCR and DECR. -/

namespace Sys2Proof.Machine

/-- The checks both functions of every cipher make, in the order of R101. -/
def cipherChecks (bits key : List Sym) : Except ErrorName Unit :=
  if bits.length = 0 then .error .emptyInputError
  else if key.length = 0 then .error .keyError
  else if allBits bits = false then .error .charsetError
  else .ok ()

/-! ### The xor-stream cipher, "vigenere" (R103) -/

/-- From message position `p` on: each bit exclusive-ored with the key bit at the same cycled position (R103). -/
def xorFrom (kb : List Bool) : Nat → List Sym → List Sym
  | _, [] => []
  | p, c :: cs => symOf (bitVal c ^^ kb.getD (p % kb.length) false) :: xorFrom kb (p + 1) cs

/-- `XorStream` (R103), its own inverse. -/
def xorStream (bits key : List Sym) : Except ErrorName (List Sym) :=
  match cipherChecks bits key with
  | .error e => .error e
  | .ok _ => .ok (xorFrom (keyBits key) 0 bits)

/-! ### The bit-shift cipher, "caesar" (R108) -/

/-- The symbol of an integer's remainder modulo 2, which is 0 or 1 also for `0 - 1` (R6, R108). -/
def symOfMod2 (z : Int) : Sym := symOf (decide (z % 2 = 1))

/-- `BitShiftEnc` (R108): `(bit + shift) mod 2`. -/
def bitShiftEnc (bits key : List Sym) : Except ErrorName (List Sym) :=
  match cipherChecks bits key with
  | .error e => .error e
  | .ok _ =>
    match parseShift key with
    | .error e => .error e
    | .ok shift => .ok (bits.map fun c => symOfMod2 ((bitVal c).toNat + shift.toNat : Int))

/-- `BitShiftDec` (R108): `(bit - shift) mod 2`. -/
def bitShiftDec (bits key : List Sym) : Except ErrorName (List Sym) :=
  match cipherChecks bits key with
  | .error e => .error e
  | .ok _ =>
    match parseShift key with
    | .error e => .error e
    | .ok shift => .ok (bits.map fun c => symOfMod2 ((bitVal c).toNat - shift.toNat : Int))

/-! ### The registry (R100) -/

/-- A cipher: a pair of pure functions of the stream and the key (R100). -/
structure CipherPair where
  encrypt : List Sym → List Sym → Except ErrorName (List Sym)
  decrypt : List Sym → List Sym → Except ErrorName (List Sym)

/-- Slot 0, registered as "vigenere": encrypt and decrypt are the same function (R100, R103). -/
def vigenere : CipherPair := { encrypt := xorStream, decrypt := xorStream }

/-- Slot 1, registered as "caesar" (R100, R108). -/
def caesar : CipherPair := { encrypt := bitShiftEnc, decrypt := bitShiftDec }

/-- The registry: slots 0 and 1 are full, slots 2 to 15 are empty (R65, R100). -/
def registry (cid : BitVec 4) : Option CipherPair :=
  if cid = 0#4 then some vigenere else if cid = 1#4 then some caesar else none

/-! ### The commands -/

/-- A cipher's function on the input stream and the key, committed (R105, R109). -/
def runCipher (f : List Sym → List Sym → Except ErrorName (List Sym)) (s : State) :
    Host.Outcome State Fault Refusal :=
  withStream s fun bits => withKey s fun key => .next (commitStream (f bits key) s)

/-- ENCR.VIGENERE (R105). -/
def execEncrVigenere (s : State) : Host.Outcome State Fault Refusal := runCipher vigenere.encrypt s

/-- DECR.VIGENERE (R106). -/
def execDecrVigenere (s : State) : Host.Outcome State Fault Refusal := runCipher vigenere.decrypt s

/-- ENCR.CAESAR (R109). -/
def execEncrCaesar (s : State) : Host.Outcome State Fault Refusal := runCipher caesar.encrypt s

/-- DECR.CAESAR (R110). -/
def execDecrCaesar (s : State) : Host.Outcome State Fault Refusal := runCipher caesar.decrypt s

/-- ENCR.UNREG (R111): the lookup fails before any operand is read, whichever the identifier. -/
def execEncrUnreg (_cid : BitVec 4) (s : State) : Host.Outcome State Fault Refusal :=
  .next (errorCommit .unknownCipherError s)

/-- DECR.UNREG (R111): the lookup fails before any operand is read, whichever the identifier. -/
def execDecrUnreg (_cid : BitVec 4) (s : State) : Host.Outcome State Fault Refusal :=
  .next (errorCommit .unknownCipherError s)

end Sys2Proof.Machine
end

