-- ==== Sys2Proof/Machine/Dispatch.lean ====
section
/-! DEFINITION. One arm per command (30_encoding.md R63): the command's run to its commit (R62). -/

namespace Sys2Proof.Machine

/-- Run one decoded command to its commit (R62); the byte itself was stored in `CMD` before. -/
def exec (i : Instr) (s : State) : Host.Outcome State Fault Refusal :=
  match i with
  | .enc => Sys2Proof.Machine.execEnc s
  | .val => Sys2Proof.Machine.execVal s
  | .strip => Sys2Proof.Machine.execStrip s
  | .encrVigenere => Sys2Proof.Machine.execEncrVigenere s
  | .encrCaesar => Sys2Proof.Machine.execEncrCaesar s
  | .decrVigenere => Sys2Proof.Machine.execDecrVigenere s
  | .decrCaesar => Sys2Proof.Machine.execDecrCaesar s
  | .sim => Sys2Proof.Machine.execSim s
  | .encrUnreg cid => Sys2Proof.Machine.execEncrUnreg cid s
  | .decrUnreg cid => Sys2Proof.Machine.execDecrUnreg cid s
  | .illegalOp0 cid => Sys2Proof.Machine.execIllegalOp0 cid s
  | .illegalOp7 cid => Sys2Proof.Machine.execIllegalOp7 cid s
  | .illegalOp8 cid low => Sys2Proof.Machine.execIllegalOp8 cid low s
  | .illegalEncCid cid => Sys2Proof.Machine.execIllegalEncCid cid s
  | .illegalValCid cid => Sys2Proof.Machine.execIllegalValCid cid s
  | .illegalStripCid cid => Sys2Proof.Machine.execIllegalStripCid cid s
  | .illegalSimCid cid => Sys2Proof.Machine.execIllegalSimCid cid s

end Sys2Proof.Machine
end

