-- ==== Sys2Proof/Machine/HostAccess.lean ====
section
/-! DEFINITION. What one access of the host does (10_state.md R13, R14; 20_memory.md R41, R53), the pseudo-operations as
sequences of accesses (30_encoding.md R73), and reset (70_reset_and_hazards.md R160). -/

namespace Sys2Proof.Machine

/-- A write of byte `w` to `CMD`: `CMD <- w`, decode `w`, run the command to its commit (R14, R62). -/
def runCommand (w : BitVec 8) (s : State) : Host.Outcome State Fault Refusal :=
  exec (decodeByte w) (s.setCmd w)

/-- The host's read of a register (R13): no side effect in CORE (R51), the host hears the value. A number that names no
register is refused (R165 (b)). -/
def hostReadRegister (number : Nat) (s : State) : Host.Outcome State Fault Refusal :=
  match readRegister s number with
  | some v => .next (s.hear v)
  | none => .refused .noSuchRegister

/-- The host's write of a value that fits the register, by number (R13): `CMD` starts a command, `STATUS` and `OLEN`
ignore the write, a length above its capacity is refused (R165 (a)). -/
def writeFitting (number value : Nat) (s : State) : Host.Outcome State Fault Refusal :=
  match number with
  | 0 => runCommand (BitVec.ofNat 8 value) s
  | 2 => if s.params.nMax < value then .refused .lengthAboveCapacity else .next (s.setIlen value)
  | 3 => if s.params.kMax < value then .refused .lengthAboveCapacity else .next (s.setKlen value)
  | 5 => .next (s.setRate (BitVec.ofNat 17 value))
  | _ => .next s

/-- The host's write of a register (R13). A number that names no register is refused (R165 (b)), and so is a value wider
than the register (R165 (f)), one that is read only included (log 7). -/
def hostWriteRegister (number value : Nat) (s : State) : Host.Outcome State Fault Refusal :=
  match registerWidth s.params number with
  | none => .refused .noSuchRegister
  | some w => if 2 ^ w ≤ value then .refused .valueWiderThanRegister else writeFitting number value s

/-- The host's `MemRead` (R41): refused at an index that names no cell (R165 (b)), and for a cell that holds no value
(R165 (d)). -/
def hostReadCell (b : Buffer) (i : Nat) (s : State) : Host.Outcome State Fault Refusal :=
  if capacity s.params b ≤ i then .refused .noSuchCell
  else
    match Memory.read (s.buffer b) i with
    | some v => .next (s.hear v.toNat)
    | none => .refused .cellHoldsNoValue

/-- The host's `MemWrite` (R41): refused at an index that names no cell (R165 (b); log 8); a write to `OBUF` is
ignored (R27). -/
def hostWriteCell (b : Buffer) (i : Nat) (v : Sym) (s : State) : Host.Outcome State Fault Refusal :=
  if capacity s.params b ≤ i then .refused .noSuchCell
  else
    match b with
    | .ibuf => .next (s.writeIbuf i v)
    | .kbuf => .next (s.writeKbuf i v)
    | .obuf => .next s

/-- Reset during the command `w` (R160): it is abandoned and commits nothing. Of the draws the command asks for, at most
`draws` were answered by then, and the source keeps its own state (R161; log 9). A command that is refused stays refused. -/
def resetDuringCommand (w : BitVec 8) (draws : Nat) (s : State) : Host.Outcome State Fault Refusal :=
  match runCommand w s with
  | .next t => .next ((resetCore s).setSource (sourceAfter (min draws (t.rng.asked - s.rng.asked)) s.rng))
  | .fault f => .fault f
  | .refused r => .refused r

/-- One access (R53 (a): accesses take effect in the order the host issues them). -/
def performAccess (a : Access) (s : State) : Host.Outcome State Fault Refusal :=
  match a with
  | .readRegister number => hostReadRegister number s
  | .writeRegister number value => hostWriteRegister number value s
  | .readCell b i => hostReadCell b i s
  | .writeCell b i v => hostWriteCell b i v s
  | .reset => .next (resetCore s)
  | .resetDuring w draws => resetDuringCommand w draws s
  | .connectSource answers => .next (s.setSource { s.rng with script := answers })

/-- `MemWrite(B, i, s[i])` for every element of a stream, from cell `i` on (R73). -/
def writesFrom (b : Buffer) : Nat → List Sym → List HostOp
  | _, [] => []
  | i, v :: vs => .access (.writeCell b i v) :: writesFrom b (i + 1) vs

/-- `MemWrite(IBUF, i, MemRead(OBUF, i))` for every element of the output stream, from cell `i` on (R73). -/
def copiesFrom : Nat → List Sym → List HostOp
  | _, [] => []
  | i, v :: vs => .access (.readCell .obuf i) :: .access (.writeCell .ibuf i v) :: copiesFrom (i + 1) vs

/-- The accesses of a pseudo-operation (R73); `none` for an MVO whose output region holds a cell without value. -/
def expand (p : Pseudo) (s : State) : Option (List HostOp) :=
  match p with
  | .ldi stream => some (writesFrom .ibuf 0 stream ++ [.access (.writeRegister 2 stream.length)])
  | .ldk key => some (writesFrom .kbuf 0 key ++ [.access (.writeRegister 3 key.length)])
  | .ldr value => some [.access (.writeRegister 5 value)]
  | .mvo =>
    match outputStream s with
    | some out => some (.access (.readRegister 4) :: copiesFrom 0 out ++ [.access (.writeRegister 2 s.olen)])
    | none => none
  | .rdo => some (.access (.readRegister 4) :: (List.range s.olen).map fun i => .access (.readCell .obuf i))
  | .rds => some [.access (.readRegister 1)]
  | .issue command => some [.access (.writeRegister 0 (assemble command).toNat)]

/-- One item of the host's list, already taken from it: an access is performed, a pseudo-operation is replaced by its
accesses (log 11). -/
def performOp (op : HostOp) (s : State) : Host.Outcome State Fault Refusal :=
  match op with
  | .access a => performAccess a s
  | .pseudo p =>
    match expand p s with
    | some ops => .next (s.setPending (ops ++ s.host.pending))
    | none => .refused .cellHoldsNoValue

/-- The next item of the host's list. With nothing to do nothing happens: CORE takes no step but on a write of `CMD` (R62),
and "keeps all state" while idle (60_exceptions.md R152). -/
def performNext (s : State) : Host.Outcome State Fault Refusal :=
  match s.host.pending with
  | [] => .next s
  | op :: rest => performOp op (s.setPending rest)

/-- The state whose next access is the write of byte `w` to `CMD`. -/
def withCommandNext (s : State) (w : BitVec 8) : State :=
  s.setPending (.access (.writeRegister 0 w.toNat) :: s.host.pending)

end Sys2Proof.Machine
end

