-- ==== Sys2Proof/Machine/Step.lean ====
section
/-! DEFINITION. One step of the machine: the host's next access, and within a write of `CMD` one whole command
(30_encoding.md R62; 20_memory.md R50, R53). -/

namespace Sys2Proof.Machine

/-- One step: the host's next access takes effect, a command being run whole inside its `CMD` write (R50, R53, R62). -/
def step (s : State) : Host.Outcome State Fault Refusal := performNext s

/-- `s` with the command whose byte is `w` as the host's next access: CORE fetches nothing, a command exists only as the
byte the host writes to `CMD` (R12, R55; log 4). -/
def State.withFetchWord (s : State) (nbits w : Nat) : State :=
  withCommandNext s ((tableBytes (nbits / 8) w).headD 0#8)

end Sys2Proof.Machine
end

