-- ==== Sys2Proof/Safety.lean ====
section
/-! DEFINITION. What counts as a safe run, in the words of the spec: the host's contract (70_reset_and_hazards.md R165),
what every state between two accesses looks like (10_state.md), and what a command leaves alone (R32). -/

namespace Sys2Proof.Machine

/-! ### The host's contract (R165) -/

/-- Commands whose operands include the stream `IBUF[0 .. ILEN)` (30_encoding.md R66). -/
def readsStream : Instr → Bool
  | .enc => true
  | .val => true
  | .strip => true
  | .encrVigenere => true
  | .encrCaesar => true
  | .decrVigenere => true
  | .decrCaesar => true
  | .sim => true
  | .encrUnreg _ => false
  | .decrUnreg _ => false
  | .illegalOp0 _ => false
  | .illegalOp7 _ => false
  | .illegalOp8 _ _ => false
  | .illegalEncCid _ => false
  | .illegalValCid _ => false
  | .illegalStripCid _ => false
  | .illegalSimCid _ => false

/-- Commands whose operands include the key `KBUF[0 .. KLEN)` (R66). -/
def readsKey : Instr → Bool
  | .enc => false
  | .val => false
  | .strip => false
  | .encrVigenere => true
  | .encrCaesar => true
  | .decrVigenere => true
  | .decrCaesar => true
  | .sim => false
  | .encrUnreg _ => false
  | .decrUnreg _ => false
  | .illegalOp0 _ => false
  | .illegalOp7 _ => false
  | .illegalOp8 _ _ => false
  | .illegalEncCid _ => false
  | .illegalValCid _ => false
  | .illegalStripCid _ => false
  | .illegalSimCid _ => false

/-- Cell `i` holds a value (R28). -/
def holdsValue (m : Memory) (i : Nat) : Prop := ∃ v, Memory.read m i = some v

/-- The host may issue the command: every cell of its operand regions holds a value (R165 (c)), and ENC's output fits
(R165 (e)). -/
def commandPermitted (i : Instr) (s : State) : Prop :=
  (readsStream i = true → ∀ k, k < s.ilen → holdsValue s.ibuf k) ∧
  (readsKey i = true → ∀ k, k < s.klen → holdsValue s.kbuf k) ∧
  (i = .enc → encodedLength s.ilen ≤ s.params.nMax)

/-- The host may make the access: R165 (a) to (f), none of them broken. -/
def accessPermitted (a : Access) (s : State) : Prop :=
  match a with
  | .readRegister number => number ≤ 5
  | .writeRegister number value =>
    (∃ w, registerWidth s.params number = some w ∧ value < 2 ^ w) ∧
    (number = 2 → value ≤ s.params.nMax) ∧
    (number = 3 → value ≤ s.params.kMax) ∧
    (number = 0 → commandPermitted (decodeByte (BitVec.ofNat 8 value)) s)
  | .readCell b i => i < capacity s.params b ∧ holdsValue (s.buffer b) i
  | .writeCell b i _ => i < capacity s.params b
  | .reset => True
  | .resetDuring w _ => commandPermitted (decodeByte w) s
  | .connectSource _ => True

/-- The next item of the host's list keeps the contract. An MVO reads the output region (R73). -/
def nextPermitted (s : State) : Prop :=
  match s.host.pending with
  | [] => True
  | .access a :: _ => accessPermitted a s
  | .pseudo .mvo :: _ => ∀ k, k < s.olen → holdsValue s.obuf k
  | .pseudo _ :: _ => True

/-! ### The states between two accesses -/

/-- What the spec says of every state a program can see between two accesses. -/
structure StateInv (s : State) : Prop where
  /-- The capacities are ones R5 admits. -/
  params_legal : s.params.legal = true
  /-- `IBUF` is in canonical form and has no cell beyond its capacity (R25). -/
  ibuf_wf : Memory.wf s.ibuf = true ∧ Memory.within s.params.nMax s.ibuf = true
  /-- `KBUF` is in canonical form and has no cell beyond its capacity (R26). -/
  kbuf_wf : Memory.wf s.kbuf = true ∧ Memory.within s.params.kMax s.kbuf = true
  /-- `OBUF` is in canonical form and has no cell beyond its capacity (R27). -/
  obuf_wf : Memory.wf s.obuf = true ∧ Memory.within s.params.nMax s.obuf = true
  /-- `ILEN`, `KLEN` and `OLEN` are legal (R21, R22, R23, R56). -/
  lengths_legal : s.ilen ≤ s.params.nMax ∧ s.klen ≤ s.params.kMax ∧ s.olen ≤ s.params.nMax
  /-- Exactly the cells `OBUF[0 .. OLEN)` hold a value (R23, R28 (b)). -/
  obuf_defined : ∀ i, holdsValue s.obuf i ↔ i < s.olen
  /-- `OBUF[0 .. OLEN)` holds bits, except after SIM (R27). -/
  obuf_bits : s.cmd ≠ 0x06#8 → ∀ i v, Memory.read s.obuf i = some v → isBit v = true
  /-- `STATUS[7:6]` reads 0, and `ERR` is 0 to 7 (R15). -/
  status_legal : reservedBits s.status = 0#2 ∧ (errField s.status).toNat ≤ 7
  /-- `V` is 1 only after a VAL that succeeded, which leaves no output (R16, R19, R23). -/
  v_after_val : vFlag s.status = true → s.cmd = 0x02#8 ∧ errField s.status = 0#4 ∧ s.olen = 0
  /-- `DET` is 1 only after a SIM that succeeded (R16, R20). -/
  det_after_sim : detFlag s.status = true → s.cmd = 0x06#8 ∧ errField s.status = 0#4
  /-- After a failed command `V` and `DET` are 0 and there is no output (R16, R23). -/
  error_state : errField s.status ≠ 0#4 → vFlag s.status = false ∧ detFlag s.status = false ∧ s.olen = 0

/-! ### What commands leave alone -/

/-- `t` has the operands, the command byte, the parameters and the host of `s`: what no command writes (R32). -/
structure SameOperands (s t : State) : Prop where
  params : t.params = s.params
  cmd : t.cmd = s.cmd
  ilen : t.ilen = s.ilen
  klen : t.klen = s.klen
  rate : t.rate = s.rate
  /-- Every cell of `IBUF` reads as before. -/
  ibuf : ∀ i, Memory.read t.ibuf i = Memory.read s.ibuf i
  /-- Every cell of `KBUF` reads as before. -/
  kbuf : ∀ i, Memory.read t.kbuf i = Memory.read s.kbuf i
  host : t.host = s.host

/-- Two states the command `i` cannot tell apart: what it reads agrees (R30, R66). The stream and the key agree below their
lengths where `i` reads them, the rate and the next draws where `i` is SIM. The rest of the state, the results of earlier
commands among it, may differ. -/
structure SameInputs (i : Instr) (s t : State) : Prop where
  params : s.params = t.params
  stream : readsStream i = true →
    s.ilen = t.ilen ∧ ∀ k, k < s.ilen → Memory.read s.ibuf k = Memory.read t.ibuf k
  key : readsKey i = true →
    s.klen = t.klen ∧ ∀ k, k < s.klen → Memory.read s.kbuf k = Memory.read t.kbuf k
  sim : i = .sim → s.rate = t.rate ∧ nextDraws s.ilen s.rng = nextDraws t.ilen t.rng

/-! ### Words the statements use -/

/-- The draw that decides position `i` of a SIM issued with the source `r`: the `i`-th answer from now, counting from 0
(42_corruption_simulator.md R122). -/
def drawFor (r : RandomSource) (i : Nat) : DrawValue := r.script.getD i (Config.freeDraw (r.asked + i))

/-- The key is an optional sign and then one or more decimal digits and nothing else (30_encoding.md R68). -/
def IsNumeral (key sign digits : List Sym) : Prop :=
  key = sign ++ digits ∧ (sign = [] ∨ sign = [0x2B#8] ∨ sign = [0x2D#8]) ∧ digits ≠ [] ∧
  ∀ c, c ∈ digits → 0x30 ≤ c.toNat ∧ c.toNat ≤ 0x39

/-- The integer a numeral stands for, most significant digit first (R68; 20_memory.md R46). -/
def numeralValue (sign digits : List Sym) : Int :=
  let magnitude : Nat := digits.foldl (fun n c => 10 * n + (c.toNat - 0x30)) 0
  if sign = [0x2D#8] then -(magnitude : Int) else magnitude

/-- Position by position exclusive or of two codewords (40_parity_codec.md R83 (b)). -/
def xorCodeword (a b : Codeword) : Codeword where
  p1 := a.p1 ^^ b.p1
  p2 := a.p2 ^^ b.p2
  d0 := a.d0 ^^ b.d0
  p4 := a.p4 ^^ b.p4
  d1 := a.d1 ^^ b.d1
  d2 := a.d2 ^^ b.d2
  d3 := a.d3 ^^ b.d3
  p8 := a.p8 ^^ b.p8
  d4 := a.d4 ^^ b.d4
  d5 := a.d5 ^^ b.d5
  d6 := a.d6 ^^ b.d6

/-- How many positions of a codeword are 1 (R83). -/
def weight (c : Codeword) : Nat := (codewordBits c).count true

/-- The positions, from 1 to 11, at which a codeword is 1 (R83). -/
def onePositions (c : Codeword) : List Nat := (List.range' 1 11).filter fun k => (codewordBits c).getD (k - 1) false

/-- The `n`-th of the 2048 words of eleven bits: position `k` is bit `k - 1` of `n`. -/
def wordOf (n : Nat) : Codeword where
  p1 := n.testBit 0
  p2 := n.testBit 1
  d0 := n.testBit 2
  p4 := n.testBit 3
  d1 := n.testBit 4
  d2 := n.testBit 5
  d3 := n.testBit 6
  p8 := n.testBit 7
  d4 := n.testBit 8
  d5 := n.testBit 9
  d6 := n.testBit 10

/-- The stream with every symbol's bit complemented (R83 (e), R129). -/
def complement (bits : List Sym) : List Sym := bits.map fun c => symOf (!bitVal c)

/-- `k` steps of the machine, stopping at the first refusal. -/
abbrev runSteps (k : Nat) (s : State) : Host.Outcome State Fault Refusal := Host.Core.run Sys2Proof.core k s

end Sys2Proof.Machine
end

