-- ==== Sys2Proof/Certificates/Slice0/Obligations.lean ====
section
/-! DEFINITION. The statements about the machine, for the provers. Each cites the rules of spec/ it formalises. -/

open Sys2Proof Sys2Proof.Machine

/-! ### Decoding and stepping -/

/-- 30_encoding.md R60, R62, R63: the decoder reads back every well-formed command from its byte, whatever follows it, and
every byte is the byte of the well-formed command it decodes to. -/
def Obligations.DecodeInvertsEncode : Prop :=
  (∀ (i : Instr) (rest : List (BitVec 8)), i.wf = true → decode (encode i ++ rest) = .ok (i, rest)) ∧
  (∀ b : BitVec 8, (decodeByte b).wf = true ∧ encodeByte (decodeByte b) = b)

/-- 30_encoding.md R63: each byte belongs to exactly one row of the command map, the row of the command it decodes to; 8
bytes are defined commands, 28 unregistered ciphers, 220 illegal. -/
def Obligations.EveryByteHasOneRow : Prop :=
  (∀ b : BitVec 8, (commandMap.filter fun r => r.holds b).map (·.mnemonic) = [(decodeByte b).mnemonic]) ∧
  ((List.range 256).countP fun n =>
    decide ((decodeByte (BitVec.ofNat 8 n)).mnemonic ∈
      ["ENC", "VAL", "STRIP", "ENCR.VIGENERE", "ENCR.CAESAR", "DECR.VIGENERE", "DECR.CAESAR", "SIM"])) = 8 ∧
  ((List.range 256).countP fun n =>
    decide ((decodeByte (BitVec.ofNat 8 n)).mnemonic ∈ ["ENCR.UNREG", "DECR.UNREG"])) = 28 ∧
  ((List.range 256).countP fun n =>
    decide ((decodeByte (BitVec.ofNat 8 n)).mnemonic ∈
      ["ILLEGAL.OP0", "ILLEGAL.OP7", "ILLEGAL.OP8_15", "ILLEGAL.ENC_CID", "ILLEGAL.VAL_CID", "ILLEGAL.STRIP_CID",
        "ILLEGAL.SIM_CID"])) = 220

/-- 30_encoding.md R60, R61, R63: bytes written out from the command map decode to the commands they stand for. -/
def Obligations.WrittenBytesDecode : Prop :=
  decodeTableWord 8 0b00000001 = some .enc ∧ decodeTableWord 8 0b00000010 = some .val ∧
  decodeTableWord 8 0b00000011 = some .strip ∧ decodeTableWord 8 0b00000100 = some .encrVigenere ∧
  decodeTableWord 8 0b00010100 = some .encrCaesar ∧ decodeTableWord 8 0b00000101 = some .decrVigenere ∧
  decodeTableWord 8 0b00010101 = some .decrCaesar ∧ decodeTableWord 8 0b00000110 = some .sim ∧
  decodeTableWord 8 0b00100100 = some (.encrUnreg 2#4) ∧ decodeTableWord 8 0b11110101 = some (.decrUnreg 15#4) ∧
  decodeTableWord 8 0b00000000 = some (.illegalOp0 0#4) ∧ decodeTableWord 8 0b00010001 = some (.illegalEncCid 1#4)

/-- 10_state.md R14 and 30_encoding.md R62: when the host's next access writes byte `w` to `CMD`, the step is the run of
the well-formed command that `w` decodes to, on the state with `w` in `CMD` and the access taken from the host's list;
with the host idle the step changes nothing ("CORE takes no step at any other time"). The host's list is the model's form
(log 4). -/
def Obligations.StepRunsDecodedCommand : Prop :=
  (∀ (s : State) (w : BitVec 8) (rest : List HostOp), s.host.pending = .access (.writeRegister 0 w.toNat) :: rest →
    (decodeByte w).wf = true ∧ step s = exec (decodeByte w) ((s.setPending rest).setCmd w)) ∧
  (∀ (s : State) (w : BitVec 8), step (s.withFetchWord 8 w.toNat) = exec (decodeByte w) (s.setCmd w)) ∧
  (∀ s : State, s.host.pending = [] → step s = .next s)

/-! ### What each command computes -/

/-- 40_parity_codec.md R80, R81, R84, R85: on a non-empty all-bit stream whose output fits, ENC completes; codeword `g` of
`OBUF` holds the data bits of block `g`, zero past the end of the stream, at positions 3, 5, 6, 7, 9, 10, 11 and their
four parity bits at positions 1, 2, 4, 8; nothing else but `OLEN` and `STATUS` changes. -/
def Obligations.EncEmitsCodewords : Prop :=
  ∀ (s : State) (bits : List Sym), inputStream s = some bits → s.ilen ≠ 0 → allBits bits = true →
    11 * ((s.ilen + 6) / 7) ≤ s.params.nMax →
    ∃ t, exec .enc s = .next t ∧ t.olen = 11 * ((s.ilen + 6) / 7) ∧ t.status = 0x00#8 ∧
      (∀ g, g < (s.ilen + 6) / 7 →
        let d := fun j => bits[7 * g + j]? == some 0x31#8
        ∀ k b, (k, b) ∈ [(1, d 0 ^^ d 1 ^^ d 3 ^^ d 4 ^^ d 6), (2, d 0 ^^ d 2 ^^ d 3 ^^ d 5 ^^ d 6), (3, d 0),
            (4, d 1 ^^ d 2 ^^ d 3), (5, d 1), (6, d 2), (7, d 3), (8, d 4 ^^ d 5 ^^ d 6), (9, d 4), (10, d 5),
            (11, d 6)] →
          Memory.read t.obuf (11 * g + k - 1) = some (if b then 0x31#8 else 0x30#8)) ∧
      (∀ i, t.olen ≤ i → Memory.read t.obuf i = none) ∧ SameOperands s t ∧ t.rng = s.rng

/-- 40_parity_codec.md R90, R91: on an all-bit stream of whole codewords VAL completes; `V` is 1 exactly when in every
codeword the four parity bits recomputed from the data positions equal the stored ones; there is no output, and nothing
else changes. The empty stream is one of them (R92 (b)). -/
def Obligations.ValReportsVerdict : Prop :=
  ∀ (s : State) (prot : List Sym), inputStream s = some prot → s.ilen % 11 = 0 → allBits prot = true →
    ∃ t, exec .val s = .next t ∧ t.olen = 0 ∧ (∀ i, Memory.read t.obuf i = none) ∧
      (t.status = 0x10#8 ∨ t.status = 0x00#8) ∧
      (t.status = 0x10#8 ↔ ∀ g, g < s.ilen / 11 →
        let c := fun k => prot[11 * g + k - 1]? == some 0x31#8
        c 1 = (c 3 ^^ c 5 ^^ c 7 ^^ c 9 ^^ c 11) ∧ c 2 = (c 3 ^^ c 6 ^^ c 7 ^^ c 10 ^^ c 11) ∧
        c 4 = (c 5 ^^ c 6 ^^ c 7) ∧ c 8 = (c 9 ^^ c 10 ^^ c 11)) ∧
      SameOperands s t ∧ t.rng = s.rng

/-- 40_parity_codec.md R94, R95: on an all-bit stream of whole codewords, valid or not, STRIP completes and copies
positions 3, 5, 6, 7, 9, 10, 11 of every codeword in order; nothing else but `OLEN` and `STATUS` changes. -/
def Obligations.StripExtractsData : Prop :=
  ∀ (s : State) (prot : List Sym), inputStream s = some prot → s.ilen % 11 = 0 → allBits prot = true →
    ∃ t, exec .strip s = .next t ∧ t.olen = 7 * (s.ilen / 11) ∧ t.status = 0x00#8 ∧
      (∀ g, g < s.ilen / 11 → ∀ j k, (j, k) ∈ [(0, 3), (1, 5), (2, 6), (3, 7), (4, 9), (5, 10), (6, 11)] →
        Memory.read t.obuf (7 * g + j) = Memory.read s.ibuf (11 * g + k - 1)) ∧
      (∀ i, t.olen ≤ i → Memory.read t.obuf i = none) ∧ SameOperands s t ∧ t.rng = s.rng

/-- 30_encoding.md R67, 41_stream_cipher.md R103, R105, R106: on a non-empty all-bit stream and a non-empty key,
ENCR.VIGENERE and DECR.VIGENERE complete and exclusive-or position `p` with bit `p mod (8*KLEN)` of the key, whose
characters are taken in order, each most significant bit first; nothing else but `OLEN` and `STATUS` changes. -/
def Obligations.VigenereXorsKeyBits : Prop :=
  ∀ (i : Instr), i ∈ [Instr.encrVigenere, Instr.decrVigenere] →
  ∀ (s : State) (bits key : List Sym), inputStream s = some bits → inputKey s = some key →
    s.ilen ≠ 0 → s.klen ≠ 0 → allBits bits = true →
    ∃ t, exec i s = .next t ∧ t.olen = s.ilen ∧ t.status = 0x00#8 ∧
      (∀ p, p < s.ilen →
        let q := p % (8 * s.klen)
        let k := (key.getD (q / 8) 0#8).getLsbD (7 - q % 8)
        Memory.read t.obuf p = some (if (bits[p]? == some 0x31#8) ^^ k then 0x31#8 else 0x30#8)) ∧
      (∀ j, t.olen ≤ j → Memory.read t.obuf j = none) ∧ SameOperands s t ∧ t.rng = s.rng

/-- 30_encoding.md R68, 41_stream_cipher.md R108, R109, R110: on a non-empty all-bit stream and a key that is an integer
numeral, ENCR.CAESAR and DECR.CAESAR complete; every bit is complemented when the integer is odd, negative or not, and
kept when it is even; nothing else but `OLEN` and `STATUS` changes. -/
def Obligations.CaesarShiftsByKeyParity : Prop :=
  ∀ (i : Instr), i ∈ [Instr.encrCaesar, Instr.decrCaesar] →
  ∀ (s : State) (bits key sign digits : List Sym), inputStream s = some bits → inputKey s = some key →
    s.ilen ≠ 0 → allBits bits = true → IsNumeral key sign digits →
    ∃ t, exec i s = .next t ∧ t.olen = s.ilen ∧ t.status = 0x00#8 ∧
      (∀ p, p < s.ilen → Memory.read t.obuf p =
        some (if (bits[p]? == some 0x31#8) ^^ decide (numeralValue sign digits % 2 = 1) then 0x31#8 else 0x30#8)) ∧
      (∀ j, t.olen ≤ j → Memory.read t.obuf j = none) ∧ SameOperands s t ∧ t.rng = s.rng

/-- 42_corruption_simulator.md R120 to R127: with a rate in range SIM completes on every readable stream; position `i` is
complemented exactly when it is a bit and the `i`-th draw is below the rate, and copied otherwise; `DET` is 0 exactly when
`Validate` accepts the output; `ILEN` draws are taken; nothing else but `OLEN` and `STATUS` changes. It holds for every
answer of the random source (log 3). -/
def Obligations.SimFlipsByDraws : Prop :=
  ∀ (s : State) (bits : List Sym), inputStream s = some bits → s.rate.toNat ≤ 65536 →
    ∃ t out, exec .sim s = .next t ∧ outputStream t = some out ∧ t.olen = s.ilen ∧
      (∀ i, i < s.ilen → ∀ c, bits[i]? = some c →
        out[i]? = some (if (drawFor s.rng i).toNat < s.rate.toNat then
          (if c = 0x30#8 then 0x31#8 else if c = 0x31#8 then 0x30#8 else c) else c)) ∧
      t.status = (if validateStream out = .ok true then 0x00#8 else 0x20#8) ∧
      (∀ j, t.olen ≤ j → Memory.read t.obuf j = none) ∧ SameOperands s t ∧ t.rng = sourceAfter s.ilen s.rng

/-- 41_stream_cipher.md R111: ENCR.UNREG and DECR.UNREG, and every byte with `OP` 4 or 5 and `CID` 2 to 15, read no
operand and always commit `UnknownCipherError`: `STATUS` is 0x05, `OLEN` 0, no cell of `OBUF` holds a value, nothing else
changes. -/
def Obligations.UnregisteredCipherFails : Prop :=
  (∀ (cid : BitVec 4) (i : Instr), i ∈ [Instr.encrUnreg cid, Instr.decrUnreg cid] → ∀ s : State,
    ∃ t, exec i s = .next t ∧ t.status = 0x05#8 ∧ t.olen = 0 ∧ (∀ j, Memory.read t.obuf j = none) ∧
      SameOperands s t ∧ t.rng = s.rng) ∧
  (∀ (b : BitVec 8), (opField b).toNat ∈ [4, 5] → 2 ≤ (cidField b).toNat → ∀ s : State,
    ∃ t, exec (decodeByte b) s = .next t ∧ t.status = 0x05#8 ∧ t.olen = 0 ∧ (∀ j, Memory.read t.obuf j = none) ∧
      SameOperands s t ∧ t.rng = s.rng)

/-- 30_encoding.md R64: the seven illegal rows, and every byte with `OP` 0 or 7 to 15, or with `OP` 1, 2, 3 or 6 and `CID`
not 0, read no operand, ask for no draw, and commit `IllegalCommand`: `STATUS` is 0x07, `OLEN` 0, no cell of `OBUF` holds
a value, nothing else changes. -/
def Obligations.IllegalBytesFail : Prop :=
  (∀ (cid : BitVec 4) (low : BitVec 3) (i : Instr),
    i ∈ [Instr.illegalOp0 cid, Instr.illegalOp7 cid, Instr.illegalOp8 cid low, Instr.illegalEncCid cid,
      Instr.illegalValCid cid, Instr.illegalStripCid cid, Instr.illegalSimCid cid] → ∀ s : State,
    ∃ t, exec i s = .next t ∧ t.status = 0x07#8 ∧ t.olen = 0 ∧ (∀ j, Memory.read t.obuf j = none) ∧
      SameOperands s t ∧ t.rng = s.rng) ∧
  (∀ (b : BitVec 8), ((opField b).toNat ∈ [0, 7, 8, 9, 10, 11, 12, 13, 14, 15] ∨
      ((opField b).toNat ∈ [1, 2, 3, 6] ∧ cidField b ≠ 0#4)) → ∀ s : State,
    ∃ t, exec (decodeByte b) s = .next t ∧ t.status = 0x07#8 ∧ t.olen = 0 ∧ (∀ j, Memory.read t.obuf j = none) ∧
      SameOperands s t ∧ t.rng = s.rng)

/-! ### Errors and commits -/

/-- 60_exceptions.md R145: which error a command reports, the first that applies in its row: `ILEN = 0`, `KLEN = 0`, a
length that is not a multiple of 11, a symbol that is not a bit, a key that is no integer numeral, a rate above
`2^RATE_W`. -/
def Obligations.ChecksInOrder : Prop :=
  (∀ (b : BitVec 8) (s : State), (decodeByte b).mnemonic ∈ ["ILLEGAL.OP0", "ILLEGAL.OP7", "ILLEGAL.OP8_15",
      "ILLEGAL.ENC_CID", "ILLEGAL.VAL_CID", "ILLEGAL.STRIP_CID", "ILLEGAL.SIM_CID"] →
    exec (decodeByte b) s = .next (errorCommit .illegalCommand s)) ∧
  (∀ (b : BitVec 8) (s : State), (decodeByte b).mnemonic ∈ ["ENCR.UNREG", "DECR.UNREG"] →
    exec (decodeByte b) s = .next (errorCommit .unknownCipherError s)) ∧
  (∀ (s : State) (bits : List Sym), inputStream s = some bits → 11 * ((s.ilen + 6) / 7) ≤ s.params.nMax →
    (s.ilen = 0 → exec .enc s = .next (errorCommit .emptyInputError s)) ∧
    (s.ilen ≠ 0 → (∃ c, c ∈ bits ∧ c ≠ 0x30#8 ∧ c ≠ 0x31#8) →
      exec .enc s = .next (errorCommit .charsetError s))) ∧
  (∀ (i : Instr), i ∈ [Instr.val, Instr.strip] → ∀ (s : State) (bits : List Sym), inputStream s = some bits →
    (s.ilen % 11 ≠ 0 → exec i s = .next (errorCommit .lengthError s)) ∧
    (s.ilen % 11 = 0 → (∃ c, c ∈ bits ∧ c ≠ 0x30#8 ∧ c ≠ 0x31#8) →
      exec i s = .next (errorCommit .charsetError s))) ∧
  (∀ (i : Instr), i ∈ [Instr.encrVigenere, Instr.decrVigenere, Instr.encrCaesar, Instr.decrCaesar] →
    ∀ (s : State) (bits key : List Sym), inputStream s = some bits → inputKey s = some key →
    (s.ilen = 0 → exec i s = .next (errorCommit .emptyInputError s)) ∧
    (s.ilen ≠ 0 → s.klen = 0 → exec i s = .next (errorCommit .keyError s)) ∧
    (s.ilen ≠ 0 → s.klen ≠ 0 → (∃ c, c ∈ bits ∧ c ≠ 0x30#8 ∧ c ≠ 0x31#8) →
      exec i s = .next (errorCommit .charsetError s)) ∧
    (i ∈ [Instr.encrCaesar, Instr.decrCaesar] → s.ilen ≠ 0 → s.klen ≠ 0 →
      (∀ c, c ∈ bits → c = 0x30#8 ∨ c = 0x31#8) → (¬ ∃ sign digits, IsNumeral key sign digits) →
      exec i s = .next (errorCommit .keyError s))) ∧
  (∀ (s : State) (bits : List Sym), inputStream s = some bits → 65536 < s.rate.toNat →
    exec .sim s = .next (errorCommit .rangeError s))

/-- 60_exceptions.md R147: a command that reports an error leaves `OLEN` 0, `STATUS` the error's code with both flags and
the reserved bits 0, no cell of `OBUF` with a value, and everything else as it was; no draw was taken. -/
def Obligations.ErrorCommitIsWholeEffect : Prop :=
  (∀ (i : Instr) (s t : State), exec i s = .next t → errField t.status ≠ 0#4 → ∃ e, t = errorCommit e s) ∧
  (∀ (e : ErrorName) (s : State), (errorCommit e s).olen = 0 ∧
    (errorCommit e s).status.toNat = (match e with
      | .emptyInputError => 1 | .charsetError => 2 | .lengthError => 3 | .keyError => 4 | .unknownCipherError => 5
      | .rangeError => 6 | .illegalCommand => 7) ∧
    (∀ j, Memory.read (errorCommit e s).obuf j = none) ∧ SameOperands s (errorCommit e s) ∧
    (errorCommit e s).rng = s.rng)

/-- 10_state.md R16: every command writes all of `STATUS`: `V` is 1 only after a VAL that succeeded and found every block
valid, `DET` only after a SIM that succeeded and detected, after a failed command both are 0, bits 7:6 are 0, and no
earlier `STATUS` shows through. -/
def Obligations.StatusRewrittenWhole : Prop :=
  ∀ (i : Instr) (s t : State), exec i s = .next t →
    (vFlag t.status = true → i = .val ∧ errField t.status = 0#4 ∧
      ∃ prot, inputStream s = some prot ∧ validateStream prot = .ok true) ∧
    (detFlag t.status = true → i = .sim ∧ errField t.status = 0#4 ∧
      ∃ out, outputStream t = some out ∧ validateStream out ≠ .ok true) ∧
    (errField t.status ≠ 0#4 → vFlag t.status = false ∧ detFlag t.status = false) ∧
    reservedBits t.status = 0#2 ∧
    ∀ old : BitVec 8, exec i { s with status := old } = .next t

/-- 60_exceptions.md R148, 10_state.md R23, R28: after every command exactly the cells `OBUF[0 .. OLEN)` hold a value, and
a command other than SIM leaves only bits there (R27). -/
def Obligations.OutputRegionIsDefined : Prop :=
  ∀ (i : Instr) (s t : State), exec i s = .next t →
    (∀ j, holdsValue t.obuf j ↔ j < t.olen) ∧
    (i ≠ .sim → ∀ j v, Memory.read t.obuf j = some v → v = 0x30#8 ∨ v = 0x31#8)

/-- 10_state.md R32: no command writes `IBUF`, `ILEN`, `KBUF`, `KLEN`, `RATE` or, after the initial write, `CMD`; the
operands of a next command are those of this one. -/
def Obligations.OperandsNeverModified : Prop :=
  ∀ (i : Instr) (s t : State), exec i s = .next t →
    SameOperands s t ∧ inputStream t = inputStream s ∧ inputKey t = inputKey s

/-- 10_state.md R30: the result commit is a function of the command, of the operands it reads and of its draws. Two states
that agree on these give the same output, `OLEN` and `STATUS`, whatever earlier commands left. -/
def Obligations.ResultDependsOnlyOnOperands : Prop :=
  ∀ (i : Instr) (s t s' : State), SameInputs i s t → exec i s = .next s' →
    ∃ t', exec i t = .next t' ∧ t'.obuf = s'.obuf ∧ t'.olen = s'.olen ∧ t'.status = s'.status

/-- 20_memory.md R51, an inference the spec draws from R30 and R32: a command other than SIM issued a second time on the
same operands commits the same result. -/
def Obligations.SecondIssueChangesNothing : Prop :=
  ∀ (i : Instr) (s t : State), i ≠ .sim → exec i s = .next t → exec i t = .next t

/-! ### The host's contract -/

/-- 70_reset_and_hazards.md R165 (c), (e), with 10_state.md R28 and 20_memory.md R56: a command completes exactly when
every cell of the operand regions it reads holds a value and, for ENC, the output fits; otherwise it is refused by name. A
cell without a value is refused before any error is reported (log 6). -/
def Obligations.CommandRefusedOnlyOnViolation : Prop :=
  ∀ (i : Instr) (s : State),
    ((∃ t, exec i s = .next t) ↔ commandPermitted i s) ∧
    (¬ commandPermitted i s → exec i s = .refused .operandCellHoldsNoValue ∨
      (i = .enc ∧ s.params.nMax < 11 * ((s.ilen + 6) / 7) ∧ exec i s = .refused .encodeOutputDoesNotFit))

/-- 70_reset_and_hazards.md R165: the machine goes on from every state in which the host's next access keeps the contract,
and is refused in every other. What R165 leaves to the model is in the log: a violation comes before a command's own
errors (log 6), too wide a write of `STATUS` or `OLEN` is refused (log 7, DESIGN CHOICE), and so is a write to `OBUF` at
or above the capacity (log 8), and a refused command stays refused when a reset interrupts it (log 9, DESIGN CHOICE); an
idle host's step goes on (log 10), and so does the replacing of a pseudo-operation, but for an MVO over a cell without
value (log 11, DESIGN CHOICE). -/
def Obligations.StepRefusedOnlyOnViolation : Prop :=
  ∀ s : State, (nextPermitted s → ∃ t, step s = .next t) ∧ (¬ nextPermitted s → ∃ r, step s = .refused r)

/-- 70_reset_and_hazards.md R165 (a), (b), (d), (f): each violation of the host's contract by an access that starts no
command is refused under its own name. That a write to `OBUF` at or above the capacity is refused, not ignored, is log 8
(DEDUCED from 20_memory.md R41); that too wide a write of `STATUS` or `OLEN` is refused, not ignored, is log 7 (DESIGN
CHOICE). Too wide a write of `CMD` starts no command. -/
def Obligations.ViolationsRefusedByName : Prop :=
  ∀ s : State,
    (∀ v, v < 2 ^ lenW s.params → s.params.nMax < v →
      performAccess (.writeRegister 2 v) s = .refused .lengthAboveCapacity) ∧
    (∀ v, v < 2 ^ lenW s.params → s.params.kMax < v →
      performAccess (.writeRegister 3 v) s = .refused .lengthAboveCapacity) ∧
    (∀ n v, 5 < n → performAccess (.readRegister n) s = .refused .noSuchRegister ∧
      performAccess (.writeRegister n v) s = .refused .noSuchRegister) ∧
    (∀ b i v, capacity s.params b ≤ i → performAccess (.readCell b i) s = .refused .noSuchCell ∧
      performAccess (.writeCell b i v) s = .refused .noSuchCell) ∧
    (∀ b i, i < capacity s.params b → ¬ holdsValue (s.buffer b) i →
      performAccess (.readCell b i) s = .refused .cellHoldsNoValue) ∧
    (∀ v, 2 ^ 17 ≤ v → performAccess (.writeRegister 5 v) s = .refused .valueWiderThanRegister) ∧
    (∀ n v, n ∈ [2, 3, 4] → 2 ^ lenW s.params ≤ v →
      performAccess (.writeRegister n v) s = .refused .valueWiderThanRegister) ∧
    (∀ n v, n ∈ [0, 1] → 256 ≤ v → performAccess (.writeRegister n v) s = .refused .valueWiderThanRegister)

/-- 00_scope.md R5: `LEN_W` is the smallest width whose numbers reach past both capacities. -/
def Obligations.LengthWidthIsSmallest : Prop :=
  ∀ p : Params, p.legal = true → max p.nMax p.kMax < 2 ^ lenW p ∧ ∀ w, max p.nMax p.kMax < 2 ^ w → lenW p ≤ w

/-! ### Registers, buffers, reset -/

/-- 10_state.md R13, R14, R15, R21, R22, R24: reads of registers 0 to 5 answer their values and change nothing in CORE; a
write that fits changes that register only; a write of `STATUS` or `OLEN` that fits the register is ignored. -/
def Obligations.RegisterAccesses : Prop :=
  ∀ s : State,
    (∀ n v, (n, v) ∈ [(0, s.cmd.toNat), (1, s.status.toNat), (2, s.ilen), (3, s.klen), (4, s.olen), (5, s.rate.toNat)] →
      performAccess (.readRegister n) s = .next (s.hear v)) ∧
    (∀ v, v < 2 ^ lenW s.params → v ≤ s.params.nMax →
      performAccess (.writeRegister 2 v) s = .next { s with ilen := v }) ∧
    (∀ v, v < 2 ^ lenW s.params → v ≤ s.params.kMax →
      performAccess (.writeRegister 3 v) s = .next { s with klen := v }) ∧
    (∀ r : Rate, performAccess (.writeRegister 5 r.toNat) s = .next { s with rate := r }) ∧
    (∀ v, v < 256 → performAccess (.writeRegister 1 v) s = .next s) ∧
    (∀ v, v < 2 ^ lenW s.params → performAccess (.writeRegister 4 v) s = .next s)

/-- 10_state.md R14: after a command that completes, `CMD` reads the byte written last. -/
def Obligations.CommandReadsBack : Prop :=
  ∀ (s t : State) (w : BitVec 8), performAccess (.writeRegister 0 w.toNat) s = .next t →
    performAccess (.readRegister 0) t = .next (t.hear w.toNat)

/-- 20_memory.md R40, R41, 10_state.md R27: a write of a cell of `IBUF` or `KBUF` completes; the host then reads there
what it wrote, every other cell and everything else being as before; a write to `OBUF` changes nothing. -/
def Obligations.CellAccesses : Prop :=
  (∀ (s : State) (i : Nat) (v : Sym), i < s.params.nMax →
    ∃ t, performAccess (.writeCell .ibuf i v) s = .next t ∧ performAccess (.readCell .ibuf i) t = .next (t.hear v.toNat) ∧
      (∀ j, j ≠ i → Memory.read t.ibuf j = Memory.read s.ibuf j) ∧ { t with ibuf := s.ibuf } = s) ∧
  (∀ (s : State) (i : Nat) (v : Sym), i < s.params.kMax →
    ∃ t, performAccess (.writeCell .kbuf i v) s = .next t ∧ performAccess (.readCell .kbuf i) t = .next (t.hear v.toNat) ∧
      (∀ j, j ≠ i → Memory.read t.kbuf j = Memory.read s.kbuf j) ∧ { t with kbuf := s.kbuf } = s) ∧
  (∀ (s : State) (i : Nat) (v : Sym), i < s.params.nMax → performAccess (.writeCell .obuf i v) s = .next s) ∧
  (∀ (s : State) (b : Buffer) (i : Nat) (v : Sym), i < capacity s.params b → Memory.read (s.buffer b) i = some v →
    performAccess (.readCell b i) s = .next (s.hear v.toNat))

/-- 10_state.md R33: what reset leaves. The capacities are any that R5 admits (log 1). -/
def Obligations.ResetLeavesTheseValues : Prop :=
  State.reset.cmd = 0x00#8 ∧ State.reset.status = 0x00#8 ∧ errField State.reset.status = 0#4 ∧
  vFlag State.reset.status = false ∧ detFlag State.reset.status = false ∧ State.reset.ilen = 0 ∧
  State.reset.klen = 0 ∧ State.reset.olen = 0 ∧ State.reset.rate = 0#17 ∧
  ∀ i, Memory.read State.reset.ibuf i = none ∧ Memory.read State.reset.kbuf i = none ∧
    Memory.read State.reset.obuf i = none

/-- 70_reset_and_hazards.md R160, R161: a reset between two accesses puts CORE into the reset state of R161 and leaves the
random source alone; a reset during a command the host may issue also abandons that command, which commits nothing: only
some of its draws, none for a command other than SIM, may have been taken (log 9). -/
def Obligations.ResetAbandonsTheCommand : Prop :=
  (∀ s : State, performAccess .reset s =
    .next { State.resetWith s.params with rng := s.rng, host := s.host }) ∧
  (∀ (s : State) (w : BitVec 8) (d : Nat), commandPermitted (decodeByte w) s →
    ∃ n, n ≤ d ∧ n ≤ s.ilen ∧ (decodeByte w ≠ .sim → n = 0) ∧
      performAccess (.resetDuring w d) s =
        .next { State.resetWith s.params with rng := sourceAfter n s.rng, host := s.host })

/-- The reset state meets the invariant (10_state.md R33, R28; 00_scope.md R5). -/
def Obligations.ResetStateMeetsInvariant : Prop := StateInv State.reset

/-- The invariant of 10_state.md is kept by every step, from every state that meets it: buffers in canonical form and
within their capacities, legal lengths (R21 to R23, R56), exactly `OBUF[0 .. OLEN)` defined (R28), bits there except after
SIM (R27), `STATUS` legal (R15), `V` only after VAL, `DET` only after SIM, both 0 and no output after an error (R16, R19,
R20, R23). -/
def Obligations.StepKeepsInvariant : Prop := ∀ s t : State, StateInv s → step s = .next t → StateInv t

/-! ### The block code -/

/-- 40_parity_codec.md R83 (a) to (e), which the spec derives from R80 to R82: every codeword `encode_block` makes is
valid, and every valid word is one; the syndrome is linear; a single flip's syndrome is its position; every double flip
has a syndrome; the complement of a word has the same syndrome. -/
def Obligations.BlockCodeProperties : Prop :=
  (∀ d0 d1 d2 d3 d4 d5 d6 : Bool, blockValid (encodeBlock d0 d1 d2 d3 d4 d5 d6) = true ∧
    codewordData (encodeBlock d0 d1 d2 d3 d4 d5 d6) = [d0, d1, d2, d3, d4, d5, d6]) ∧
  (∀ c : Codeword, blockValid c = true → c = encodeBlock c.d0 c.d1 c.d2 c.d3 c.d4 c.d5 c.d6) ∧
  (∀ c e : Codeword, syndrome (xorCodeword c e) = syndrome c ^^^ syndrome e) ∧
  (∀ (e : Codeword) (k : Nat), onePositions e = [k] → syndrome e = k ∧ k ≠ 0) ∧
  (∀ e : Codeword, weight e = 2 → syndrome e ≠ 0) ∧
  (∀ c e : Codeword, weight e = 11 → syndrome (xorCodeword c e) = syndrome c)

/-- 40_parity_codec.md R83 (a), (f), (g), (h), which the spec derives from R80 to R82 by enumeration of the 2048 words:
128 are valid, their weights, 128 words for each syndrome, and the 13 undetected three-bit patterns. -/
def Obligations.BlockCodeEnumeration : Prop :=
  ((List.range 2048).countP fun n => blockValid (wordOf n)) = 128 ∧
  ((List.range 12).map fun w => (List.range 2048).countP fun n => blockValid (wordOf n) && weight (wordOf n) == w) =
    [1, 0, 0, 13, 26, 24, 24, 26, 13, 0, 0, 1] ∧
  ((List.range 16).map fun y => (List.range 2048).countP fun n => syndrome (wordOf n) == y) = List.replicate 16 128 ∧
  (∀ p : List Nat, p ∈ ((List.range 2048).filter fun n => blockValid (wordOf n) && weight (wordOf n) == 3).map
      (fun n => onePositions (wordOf n)) ↔
    p ∈ [[1, 2, 3], [1, 4, 5], [1, 6, 7], [1, 8, 9], [1, 10, 11], [2, 4, 6], [2, 5, 7], [2, 8, 10], [2, 9, 11],
      [3, 4, 7], [3, 5, 6], [3, 8, 11], [3, 9, 10]])

/-- 40_parity_codec.md R97, which the spec derives from R83, R84, R90 and R94: for a non-empty all-bit stream, `Encode`
gives `11*ceil(n/7)` symbols that `Validate` accepts and from which `Strip` gives the stream and the pad zeros; and
`Encode` gives back every non-empty valid protected stream from its `Strip`. -/
def Obligations.EncodeValidateStripLaws : Prop :=
  (∀ b : List Sym, b ≠ [] → allBits b = true →
    ∃ out, encodeStream b = .ok out ∧ validateStream out = .ok true ∧ out.length = 11 * ((b.length + 6) / 7) ∧
      stripStream out = .ok (b ++ List.replicate (7 * ((b.length + 6) / 7) - b.length) 0x30#8)) ∧
  (∀ p : List Sym, p ≠ [] → allBits p = true → p.length % 11 = 0 → validateStream p = .ok true →
    ∃ d, stripStream p = .ok d ∧ encodeStream d = .ok p)

/-- 40_parity_codec.md R86 (g), R96 (c), which the spec derives from R83, R84, R90 and R94: VAL on the output of an ENC
that succeeded gives `V = 1`, and STRIP on it gives the input of that ENC followed by pad zeros. -/
def Obligations.ValAcceptsEncOutput : Prop :=
  ∀ (s t u : State) (bits out : List Sym), inputStream s = some bits → exec .enc s = .next t →
    errField t.status = 0#4 → outputStream t = some out → inputStream u = some out →
    (∃ v, exec .val u = .next v ∧ v.status = 0x10#8) ∧
    (∃ v, exec .strip u = .next v ∧
      outputStream v = some (bits ++ List.replicate (7 * ((bits.length + 6) / 7) - bits.length) 0x30#8))

/-! ### The ciphers -/

/-- 41_stream_cipher.md R100, R112: slots 0 and 1 of the registry are full, slots 2 to 15 empty, and every registered
cipher's decrypt undoes its encrypt. -/
def Obligations.RegisteredCiphersInvert : Prop :=
  (∀ cid : BitVec 4, (registry cid).isSome = true ↔ cid.toNat < 2) ∧
  (∀ (cid : BitVec 4) (c : CipherPair), registry cid = some c → ∀ b k e : List Sym, c.encrypt b k = .ok e →
    c.decrypt e k = .ok b)

/-- 41_stream_cipher.md R104 (a), which the spec derives from R103, and R108, R110: after an ENCR that succeeded, the DECR
of the same cipher on its output and the same key completes and gives the original stream. -/
def Obligations.DecrUndoesEncr : Prop :=
  ∀ (e d : Instr), (e, d) ∈ [(Instr.encrVigenere, Instr.decrVigenere), (Instr.encrCaesar, Instr.decrCaesar)] →
    ∀ s t u : State, exec e s = .next t → errField t.status = 0#4 → inputStream u = outputStream t →
      inputKey u = inputKey s → ∃ v, exec d u = .next v ∧ v.status = 0x00#8 ∧ outputStream v = inputStream s

/-- 41_stream_cipher.md R104 (b), which the spec derives from R103: a key whose characters are all 0x00 leaves the stream
unchanged, one whose characters are all 0xFF complements every bit. -/
def Obligations.ConstantXorKeys : Prop :=
  ∀ (b : List Sym) (n : Nat), b ≠ [] → allBits b = true →
    xorStream b (List.replicate (n + 1) 0x00#8) = .ok b ∧
    xorStream b (List.replicate (n + 1) 0xFF#8) = .ok (complement b)

/-- 41_stream_cipher.md R113, which the spec derives from R108 and R83: the bit-shift cipher changes no verdict: what it
makes of a stream validates as the stream does, whatever the key. -/
def Obligations.CaesarKeepsVerdict : Prop :=
  ∀ b k e : List Sym, (bitShiftEnc b k = .ok e ∨ bitShiftDec b k = .ok e) → validateStream e = validateStream b

/-! ### The corruption simulator -/

/-- 42_corruption_simulator.md R128, R129, which the spec derives from R123, R126 and R83: at rate 0 SIM copies the
stream, and at rate 1 it complements an all-bit stream of whole codewords, whatever the draws; in both cases `DET` is 0
exactly when `Validate` accepts the input. -/
def Obligations.SimAtRateZeroAndOne : Prop :=
  ∀ (s : State) (bits : List Sym), inputStream s = some bits →
    (s.rate = 0#17 → ∃ t, exec .sim s = .next t ∧ outputStream t = some bits ∧
      t.status = (if validateStream bits = .ok true then 0x00#8 else 0x20#8)) ∧
    (s.rate = 0x10000#17 → allBits bits = true → s.ilen % 11 = 0 →
      ∃ t, exec .sim s = .next t ∧ outputStream t = some (complement bits) ∧
        t.status = (if validateStream bits = .ok true then 0x00#8 else 0x20#8))

/-- 42_corruption_simulator.md R130, which the spec derives from R126 and R83: on an all-bit stream of whole codewords
`DET` is 1 exactly when in some block the syndrome of the input differs from the syndrome of the flips that fell on it. -/
def Obligations.SimDetectsBySyndrome : Prop :=
  ∀ (s t : State) (bits : List Sym), inputStream s = some bits → allBits bits = true → s.ilen % 11 = 0 →
    s.rate.toNat ≤ 65536 → exec .sim s = .next t →
    (detFlag t.status = true ↔ ∃ g, g < s.ilen / 11 ∧
      syndrome (codewordAt bits g) ^^^
        syndrome (codewordAt ((List.range s.ilen).map fun i =>
          if (drawFor s.rng i).toNat < s.rate.toNat then 0x31#8 else 0x30#8) g) ≠ 0)

/-- 42_corruption_simulator.md R121, R122, 60_exceptions.md R153: a SIM whose rate is in range takes exactly `ILEN` draws,
and no other command takes any. -/
def Obligations.DrawsPerCommand : Prop :=
  ∀ (i : Instr) (s t : State), exec i s = .next t →
    t.rng = if i = .sim ∧ s.rate.toNat ≤ 65536 then sourceAfter s.ilen s.rng else s.rng

/-- 42_corruption_simulator.md R132, which the spec derives from R126 and R91: VAL on the output of a SIM that succeeded
gives `V = 1 - DET` when the output is all-bit and of whole codewords, `LengthError` or `CharsetError` otherwise, and then
`DET` was 1. -/
def Obligations.ValAfterSim : Prop :=
  ∀ (s t u : State) (out : List Sym), exec .sim s = .next t → errField t.status = 0#4 → outputStream t = some out →
    inputStream u = some out →
    ∃ v, exec .val u = .next v ∧
      (out.length % 11 = 0 → allBits out = true → errField v.status = 0#4 ∧ vFlag v.status = !detFlag t.status) ∧
      (out.length % 11 ≠ 0 → errField v.status = 3#4 ∧ detFlag t.status = true) ∧
      (out.length % 11 = 0 → allBits out = false → errField v.status = 2#4 ∧ detFlag t.status = true)

/-! ### Pseudo-operations -/

/-- 30_encoding.md R73, `LDI` and `LDK`: as many steps as the loading has accesses, and one to begin (log 11), leave the
stream in `IBUF` (the key in `KBUF`) and its length in `ILEN` (`KLEN`), and change no other cell and nothing else of CORE.
-/
def Obligations.LoadsFillTheOperands : Prop :=
  (∀ (s : State) (stream : List Sym) (rest : List HostOp), s.host.pending = .pseudo (.ldi stream) :: rest →
    stream.length ≤ s.params.nMax →
    ∃ t, runSteps (stream.length + 2) s = .next t ∧ inputStream t = some stream ∧ t.ilen = stream.length ∧
      (∀ j, stream.length ≤ j → Memory.read t.ibuf j = Memory.read s.ibuf j) ∧
      t = { s with ibuf := t.ibuf, ilen := t.ilen, host := { s.host with pending := rest } }) ∧
  (∀ (s : State) (key : List Sym) (rest : List HostOp), s.host.pending = .pseudo (.ldk key) :: rest →
    key.length ≤ s.params.kMax →
    ∃ t, runSteps (key.length + 2) s = .next t ∧ inputKey t = some key ∧ t.klen = key.length ∧
      (∀ j, key.length ≤ j → Memory.read t.kbuf j = Memory.read s.kbuf j) ∧
      t = { s with kbuf := t.kbuf, klen := t.klen, host := { s.host with pending := rest } })

/-- 30_encoding.md R73, `MVO`, its steps counted as in log 11: the output stream becomes the input stream; `OBUF` and the
rest of CORE are as they were. -/
def Obligations.MoveOutputToInput : Prop :=
  ∀ (s : State) (out : List Sym) (rest : List HostOp), s.host.pending = .pseudo .mvo :: rest →
    outputStream s = some out → s.olen ≤ s.params.nMax →
    ∃ t, runSteps (2 * s.olen + 3) s = .next t ∧ inputStream t = some out ∧ t.ilen = s.olen ∧
      (∀ j, s.olen ≤ j → Memory.read t.ibuf j = Memory.read s.ibuf j) ∧
      t.host = { pending := rest, heard := s.host.heard ++ s.olen :: out.map (·.toNat) } ∧
      t = { s with ibuf := t.ibuf, ilen := t.ilen, host := t.host }

/-- 30_encoding.md R73, `RDO`, `RDS` and `LDR`, their steps counted as in log 11: the host hears `OLEN` and the output
stream, or `STATUS`, and nothing of CORE changes; `LDR` changes `RATE` alone. -/
def Obligations.ReadsAndRate : Prop :=
  (∀ (s : State) (out : List Sym) (rest : List HostOp), s.host.pending = .pseudo .rdo :: rest →
    outputStream s = some out → s.olen ≤ s.params.nMax →
    let after : HostAgent := { pending := rest, heard := s.host.heard ++ s.olen :: out.map (·.toNat) }
    runSteps (s.olen + 2) s = .next { s with host := after }) ∧
  (∀ (s : State) (rest : List HostOp), s.host.pending = .pseudo .rds :: rest →
    runSteps 2 s = .next { s with host := { pending := rest, heard := s.host.heard ++ [s.status.toNat] } }) ∧
  (∀ (s : State) (r : Rate) (rest : List HostOp), s.host.pending = .pseudo (.ldr r.toNat) :: rest →
    runSteps 2 s = .next { s with rate := r, host := { s.host with pending := rest } })

/-- 30_encoding.md R71: a mnemonic of the host's notation takes one step to be replaced by the write of its byte (log 11),
and the step after it is the run of the command it names: the eight mnemonics that stand alone; `ENCR.n` and `DECR.n`,
whose byte is `16*n + 4` or `16*n + 5` and whose number the model holds as `n - 2` (log 16); and `CMD b`, the raw byte. -/
def Obligations.MnemonicsRunTheirCommands : Prop :=
  ∀ (s : State) (rest : List HostOp) (c : HostCommand) (w : BitVec 8) (i : Instr),
    ((c, w, i) ∈ [(HostCommand.enc, 0x01#8, Instr.enc), (.val, 0x02#8, .val), (.strip, 0x03#8, .strip),
        (.encrVigenere, 0x04#8, .encrVigenere), (.encrCaesar, 0x14#8, .encrCaesar),
        (.decrVigenere, 0x05#8, .decrVigenere), (.decrCaesar, 0x15#8, .decrCaesar), (.sim, 0x06#8, .sim)] ∨
      (∃ k : Fin 14, c = .encrN k ∧ w.toNat = 16 * (k.val + 2) + 4 ∧ i = .encrUnreg (BitVec.ofNat 4 (k.val + 2))) ∨
      (∃ k : Fin 14, c = .decrN k ∧ w.toNat = 16 * (k.val + 2) + 5 ∧ i = .decrUnreg (BitVec.ofNat 4 (k.val + 2))) ∨
      (c = .raw w ∧ i = decodeByte w)) →
    s.host.pending = .pseudo (.issue c) :: rest →
    step s = .next (s.setPending (.access (.writeRegister 0 w.toNat) :: rest)) ∧
    step (s.setPending (.access (.writeRegister 0 w.toNat) :: rest)) = exec i ((s.setPending rest).setCmd w)

/-- 30_encoding.md R72, 60_exceptions.md R153, 70_reset_and_hazards.md R164, R169: connecting or seeding a source fixes
its next answers, in their order, and changes nothing else: not the count of the draws answered, and nothing of CORE or of
the host (the form of the act is log 16, a DESIGN CHOICE). A SIM in range that follows, its stream no longer than the
answers, flips position `i` exactly by answer `i`. -/
def Obligations.ConnectedSourceAnswers : Prop :=
  ∀ (s : State) (answers : List DrawValue), ∃ t, performAccess (.connectSource answers) s = .next t ∧
    nextDraws answers.length t.rng = answers ∧ t.rng.asked = s.rng.asked ∧
    (sourceAfter answers.length t.rng).script = [] ∧ { t with rng := s.rng } = s ∧
    ∀ bits : List Sym, inputStream s = some bits → s.rate.toNat ≤ 65536 → s.ilen ≤ answers.length →
      ∃ u out, exec .sim t = .next u ∧ outputStream u = some out ∧ u.olen = s.ilen ∧
        ∀ i c a, i < s.ilen → bits[i]? = some c → answers[i]? = some a →
          out[i]? = some (if a.toNat < s.rate.toNat then
            (if c = 0x30#8 then 0x31#8 else if c = 0x31#8 then 0x30#8 else c) else c)
end

