-- ==== Sys2Proof/Laws/State.lean ====
section
/-! SUPPORT. One lemma per field of State per update, so that no proof unfolds a record update. -/

namespace Sys2Proof.Machine

/-! ### setCmd -/

@[simp] theorem State.setCmd_params (s : State) (w : BitVec 8) : (s.setCmd w).params = s.params := rfl
@[simp] theorem State.setCmd_cmd (s : State) (w : BitVec 8) : (s.setCmd w).cmd = w := rfl
@[simp] theorem State.setCmd_status (s : State) (w : BitVec 8) : (s.setCmd w).status = s.status := rfl
@[simp] theorem State.setCmd_ilen (s : State) (w : BitVec 8) : (s.setCmd w).ilen = s.ilen := rfl
@[simp] theorem State.setCmd_klen (s : State) (w : BitVec 8) : (s.setCmd w).klen = s.klen := rfl
@[simp] theorem State.setCmd_olen (s : State) (w : BitVec 8) : (s.setCmd w).olen = s.olen := rfl
@[simp] theorem State.setCmd_rate (s : State) (w : BitVec 8) : (s.setCmd w).rate = s.rate := rfl
@[simp] theorem State.setCmd_ibuf (s : State) (w : BitVec 8) : (s.setCmd w).ibuf = s.ibuf := rfl
@[simp] theorem State.setCmd_kbuf (s : State) (w : BitVec 8) : (s.setCmd w).kbuf = s.kbuf := rfl
@[simp] theorem State.setCmd_obuf (s : State) (w : BitVec 8) : (s.setCmd w).obuf = s.obuf := rfl
@[simp] theorem State.setCmd_rng (s : State) (w : BitVec 8) : (s.setCmd w).rng = s.rng := rfl
@[simp] theorem State.setCmd_host (s : State) (w : BitVec 8) : (s.setCmd w).host = s.host := rfl

/-! ### setIlen -/

@[simp] theorem State.setIlen_params (s : State) (n : Nat) : (s.setIlen n).params = s.params := rfl
@[simp] theorem State.setIlen_cmd (s : State) (n : Nat) : (s.setIlen n).cmd = s.cmd := rfl
@[simp] theorem State.setIlen_status (s : State) (n : Nat) : (s.setIlen n).status = s.status := rfl
@[simp] theorem State.setIlen_ilen (s : State) (n : Nat) : (s.setIlen n).ilen = n := rfl
@[simp] theorem State.setIlen_klen (s : State) (n : Nat) : (s.setIlen n).klen = s.klen := rfl
@[simp] theorem State.setIlen_olen (s : State) (n : Nat) : (s.setIlen n).olen = s.olen := rfl
@[simp] theorem State.setIlen_rate (s : State) (n : Nat) : (s.setIlen n).rate = s.rate := rfl
@[simp] theorem State.setIlen_ibuf (s : State) (n : Nat) : (s.setIlen n).ibuf = s.ibuf := rfl
@[simp] theorem State.setIlen_kbuf (s : State) (n : Nat) : (s.setIlen n).kbuf = s.kbuf := rfl
@[simp] theorem State.setIlen_obuf (s : State) (n : Nat) : (s.setIlen n).obuf = s.obuf := rfl
@[simp] theorem State.setIlen_rng (s : State) (n : Nat) : (s.setIlen n).rng = s.rng := rfl
@[simp] theorem State.setIlen_host (s : State) (n : Nat) : (s.setIlen n).host = s.host := rfl

/-! ### setKlen -/

@[simp] theorem State.setKlen_params (s : State) (n : Nat) : (s.setKlen n).params = s.params := rfl
@[simp] theorem State.setKlen_cmd (s : State) (n : Nat) : (s.setKlen n).cmd = s.cmd := rfl
@[simp] theorem State.setKlen_status (s : State) (n : Nat) : (s.setKlen n).status = s.status := rfl
@[simp] theorem State.setKlen_ilen (s : State) (n : Nat) : (s.setKlen n).ilen = s.ilen := rfl
@[simp] theorem State.setKlen_klen (s : State) (n : Nat) : (s.setKlen n).klen = n := rfl
@[simp] theorem State.setKlen_olen (s : State) (n : Nat) : (s.setKlen n).olen = s.olen := rfl
@[simp] theorem State.setKlen_rate (s : State) (n : Nat) : (s.setKlen n).rate = s.rate := rfl
@[simp] theorem State.setKlen_ibuf (s : State) (n : Nat) : (s.setKlen n).ibuf = s.ibuf := rfl
@[simp] theorem State.setKlen_kbuf (s : State) (n : Nat) : (s.setKlen n).kbuf = s.kbuf := rfl
@[simp] theorem State.setKlen_obuf (s : State) (n : Nat) : (s.setKlen n).obuf = s.obuf := rfl
@[simp] theorem State.setKlen_rng (s : State) (n : Nat) : (s.setKlen n).rng = s.rng := rfl
@[simp] theorem State.setKlen_host (s : State) (n : Nat) : (s.setKlen n).host = s.host := rfl

/-! ### setRate -/

@[simp] theorem State.setRate_params (s : State) (r : Rate) : (s.setRate r).params = s.params := rfl
@[simp] theorem State.setRate_cmd (s : State) (r : Rate) : (s.setRate r).cmd = s.cmd := rfl
@[simp] theorem State.setRate_status (s : State) (r : Rate) : (s.setRate r).status = s.status := rfl
@[simp] theorem State.setRate_ilen (s : State) (r : Rate) : (s.setRate r).ilen = s.ilen := rfl
@[simp] theorem State.setRate_klen (s : State) (r : Rate) : (s.setRate r).klen = s.klen := rfl
@[simp] theorem State.setRate_olen (s : State) (r : Rate) : (s.setRate r).olen = s.olen := rfl
@[simp] theorem State.setRate_rate (s : State) (r : Rate) : (s.setRate r).rate = r := rfl
@[simp] theorem State.setRate_ibuf (s : State) (r : Rate) : (s.setRate r).ibuf = s.ibuf := rfl
@[simp] theorem State.setRate_kbuf (s : State) (r : Rate) : (s.setRate r).kbuf = s.kbuf := rfl
@[simp] theorem State.setRate_obuf (s : State) (r : Rate) : (s.setRate r).obuf = s.obuf := rfl
@[simp] theorem State.setRate_rng (s : State) (r : Rate) : (s.setRate r).rng = s.rng := rfl
@[simp] theorem State.setRate_host (s : State) (r : Rate) : (s.setRate r).host = s.host := rfl

/-! ### writeIbuf -/

@[simp] theorem State.writeIbuf_params (s : State) (i : Nat) (v : Sym) : (s.writeIbuf i v).params = s.params := rfl
@[simp] theorem State.writeIbuf_cmd (s : State) (i : Nat) (v : Sym) : (s.writeIbuf i v).cmd = s.cmd := rfl
@[simp] theorem State.writeIbuf_status (s : State) (i : Nat) (v : Sym) : (s.writeIbuf i v).status = s.status := rfl
@[simp] theorem State.writeIbuf_ilen (s : State) (i : Nat) (v : Sym) : (s.writeIbuf i v).ilen = s.ilen := rfl
@[simp] theorem State.writeIbuf_klen (s : State) (i : Nat) (v : Sym) : (s.writeIbuf i v).klen = s.klen := rfl
@[simp] theorem State.writeIbuf_olen (s : State) (i : Nat) (v : Sym) : (s.writeIbuf i v).olen = s.olen := rfl
@[simp] theorem State.writeIbuf_rate (s : State) (i : Nat) (v : Sym) : (s.writeIbuf i v).rate = s.rate := rfl
@[simp] theorem State.writeIbuf_ibuf (s : State) (i : Nat) (v : Sym) : (s.writeIbuf i v).ibuf = Memory.write s.ibuf i v := rfl
@[simp] theorem State.writeIbuf_kbuf (s : State) (i : Nat) (v : Sym) : (s.writeIbuf i v).kbuf = s.kbuf := rfl
@[simp] theorem State.writeIbuf_obuf (s : State) (i : Nat) (v : Sym) : (s.writeIbuf i v).obuf = s.obuf := rfl
@[simp] theorem State.writeIbuf_rng (s : State) (i : Nat) (v : Sym) : (s.writeIbuf i v).rng = s.rng := rfl
@[simp] theorem State.writeIbuf_host (s : State) (i : Nat) (v : Sym) : (s.writeIbuf i v).host = s.host := rfl

/-! ### writeKbuf -/

@[simp] theorem State.writeKbuf_params (s : State) (i : Nat) (v : Sym) : (s.writeKbuf i v).params = s.params := rfl
@[simp] theorem State.writeKbuf_cmd (s : State) (i : Nat) (v : Sym) : (s.writeKbuf i v).cmd = s.cmd := rfl
@[simp] theorem State.writeKbuf_status (s : State) (i : Nat) (v : Sym) : (s.writeKbuf i v).status = s.status := rfl
@[simp] theorem State.writeKbuf_ilen (s : State) (i : Nat) (v : Sym) : (s.writeKbuf i v).ilen = s.ilen := rfl
@[simp] theorem State.writeKbuf_klen (s : State) (i : Nat) (v : Sym) : (s.writeKbuf i v).klen = s.klen := rfl
@[simp] theorem State.writeKbuf_olen (s : State) (i : Nat) (v : Sym) : (s.writeKbuf i v).olen = s.olen := rfl
@[simp] theorem State.writeKbuf_rate (s : State) (i : Nat) (v : Sym) : (s.writeKbuf i v).rate = s.rate := rfl
@[simp] theorem State.writeKbuf_ibuf (s : State) (i : Nat) (v : Sym) : (s.writeKbuf i v).ibuf = s.ibuf := rfl
@[simp] theorem State.writeKbuf_kbuf (s : State) (i : Nat) (v : Sym) : (s.writeKbuf i v).kbuf = Memory.write s.kbuf i v := rfl
@[simp] theorem State.writeKbuf_obuf (s : State) (i : Nat) (v : Sym) : (s.writeKbuf i v).obuf = s.obuf := rfl
@[simp] theorem State.writeKbuf_rng (s : State) (i : Nat) (v : Sym) : (s.writeKbuf i v).rng = s.rng := rfl
@[simp] theorem State.writeKbuf_host (s : State) (i : Nat) (v : Sym) : (s.writeKbuf i v).host = s.host := rfl

/-! ### setSource -/

@[simp] theorem State.setSource_params (s : State) (r : RandomSource) : (s.setSource r).params = s.params := rfl
@[simp] theorem State.setSource_cmd (s : State) (r : RandomSource) : (s.setSource r).cmd = s.cmd := rfl
@[simp] theorem State.setSource_status (s : State) (r : RandomSource) : (s.setSource r).status = s.status := rfl
@[simp] theorem State.setSource_ilen (s : State) (r : RandomSource) : (s.setSource r).ilen = s.ilen := rfl
@[simp] theorem State.setSource_klen (s : State) (r : RandomSource) : (s.setSource r).klen = s.klen := rfl
@[simp] theorem State.setSource_olen (s : State) (r : RandomSource) : (s.setSource r).olen = s.olen := rfl
@[simp] theorem State.setSource_rate (s : State) (r : RandomSource) : (s.setSource r).rate = s.rate := rfl
@[simp] theorem State.setSource_ibuf (s : State) (r : RandomSource) : (s.setSource r).ibuf = s.ibuf := rfl
@[simp] theorem State.setSource_kbuf (s : State) (r : RandomSource) : (s.setSource r).kbuf = s.kbuf := rfl
@[simp] theorem State.setSource_obuf (s : State) (r : RandomSource) : (s.setSource r).obuf = s.obuf := rfl
@[simp] theorem State.setSource_rng (s : State) (r : RandomSource) : (s.setSource r).rng = r := rfl
@[simp] theorem State.setSource_host (s : State) (r : RandomSource) : (s.setSource r).host = s.host := rfl

/-! ### setPending -/

@[simp] theorem State.setPending_params (s : State) (ops : List HostOp) : (s.setPending ops).params = s.params := rfl
@[simp] theorem State.setPending_cmd (s : State) (ops : List HostOp) : (s.setPending ops).cmd = s.cmd := rfl
@[simp] theorem State.setPending_status (s : State) (ops : List HostOp) : (s.setPending ops).status = s.status := rfl
@[simp] theorem State.setPending_ilen (s : State) (ops : List HostOp) : (s.setPending ops).ilen = s.ilen := rfl
@[simp] theorem State.setPending_klen (s : State) (ops : List HostOp) : (s.setPending ops).klen = s.klen := rfl
@[simp] theorem State.setPending_olen (s : State) (ops : List HostOp) : (s.setPending ops).olen = s.olen := rfl
@[simp] theorem State.setPending_rate (s : State) (ops : List HostOp) : (s.setPending ops).rate = s.rate := rfl
@[simp] theorem State.setPending_ibuf (s : State) (ops : List HostOp) : (s.setPending ops).ibuf = s.ibuf := rfl
@[simp] theorem State.setPending_kbuf (s : State) (ops : List HostOp) : (s.setPending ops).kbuf = s.kbuf := rfl
@[simp] theorem State.setPending_obuf (s : State) (ops : List HostOp) : (s.setPending ops).obuf = s.obuf := rfl
@[simp] theorem State.setPending_rng (s : State) (ops : List HostOp) : (s.setPending ops).rng = s.rng := rfl
@[simp] theorem State.setPending_host (s : State) (ops : List HostOp) : (s.setPending ops).host = { s.host with pending := ops } := rfl

/-! ### hear -/

@[simp] theorem State.hear_params (s : State) (v : Nat) : (s.hear v).params = s.params := rfl
@[simp] theorem State.hear_cmd (s : State) (v : Nat) : (s.hear v).cmd = s.cmd := rfl
@[simp] theorem State.hear_status (s : State) (v : Nat) : (s.hear v).status = s.status := rfl
@[simp] theorem State.hear_ilen (s : State) (v : Nat) : (s.hear v).ilen = s.ilen := rfl
@[simp] theorem State.hear_klen (s : State) (v : Nat) : (s.hear v).klen = s.klen := rfl
@[simp] theorem State.hear_olen (s : State) (v : Nat) : (s.hear v).olen = s.olen := rfl
@[simp] theorem State.hear_rate (s : State) (v : Nat) : (s.hear v).rate = s.rate := rfl
@[simp] theorem State.hear_ibuf (s : State) (v : Nat) : (s.hear v).ibuf = s.ibuf := rfl
@[simp] theorem State.hear_kbuf (s : State) (v : Nat) : (s.hear v).kbuf = s.kbuf := rfl
@[simp] theorem State.hear_obuf (s : State) (v : Nat) : (s.hear v).obuf = s.obuf := rfl
@[simp] theorem State.hear_rng (s : State) (v : Nat) : (s.hear v).rng = s.rng := rfl
@[simp] theorem State.hear_host (s : State) (v : Nat) : (s.hear v).host = { s.host with heard := s.host.heard ++ [v] } := rfl

/-! ### errorCommit -/

@[simp] theorem errorCommit_params (s : State) (e : ErrorName) : (errorCommit e s).params = s.params := rfl
@[simp] theorem errorCommit_cmd (s : State) (e : ErrorName) : (errorCommit e s).cmd = s.cmd := rfl
@[simp] theorem errorCommit_status (s : State) (e : ErrorName) : (errorCommit e s).status = errorStatus e := rfl
@[simp] theorem errorCommit_ilen (s : State) (e : ErrorName) : (errorCommit e s).ilen = s.ilen := rfl
@[simp] theorem errorCommit_klen (s : State) (e : ErrorName) : (errorCommit e s).klen = s.klen := rfl
@[simp] theorem errorCommit_olen (s : State) (e : ErrorName) : (errorCommit e s).olen = 0 := rfl
@[simp] theorem errorCommit_rate (s : State) (e : ErrorName) : (errorCommit e s).rate = s.rate := rfl
@[simp] theorem errorCommit_ibuf (s : State) (e : ErrorName) : (errorCommit e s).ibuf = s.ibuf := rfl
@[simp] theorem errorCommit_kbuf (s : State) (e : ErrorName) : (errorCommit e s).kbuf = s.kbuf := rfl
@[simp] theorem errorCommit_obuf (s : State) (e : ErrorName) : (errorCommit e s).obuf = [] := rfl
@[simp] theorem errorCommit_rng (s : State) (e : ErrorName) : (errorCommit e s).rng = s.rng := rfl
@[simp] theorem errorCommit_host (s : State) (e : ErrorName) : (errorCommit e s).host = s.host := rfl

/-! ### successCommit -/

@[simp] theorem successCommit_params (s : State) (out : List Sym) (v det : Bool) : (successCommit out v det s).params = s.params := rfl
@[simp] theorem successCommit_cmd (s : State) (out : List Sym) (v det : Bool) : (successCommit out v det s).cmd = s.cmd := rfl
@[simp] theorem successCommit_status (s : State) (out : List Sym) (v det : Bool) : (successCommit out v det s).status = okStatus v det := rfl
@[simp] theorem successCommit_ilen (s : State) (out : List Sym) (v det : Bool) : (successCommit out v det s).ilen = s.ilen := rfl
@[simp] theorem successCommit_klen (s : State) (out : List Sym) (v det : Bool) : (successCommit out v det s).klen = s.klen := rfl
@[simp] theorem successCommit_olen (s : State) (out : List Sym) (v det : Bool) : (successCommit out v det s).olen = out.length := rfl
@[simp] theorem successCommit_rate (s : State) (out : List Sym) (v det : Bool) : (successCommit out v det s).rate = s.rate := rfl
@[simp] theorem successCommit_ibuf (s : State) (out : List Sym) (v det : Bool) : (successCommit out v det s).ibuf = s.ibuf := rfl
@[simp] theorem successCommit_kbuf (s : State) (out : List Sym) (v det : Bool) : (successCommit out v det s).kbuf = s.kbuf := rfl
@[simp] theorem successCommit_obuf (s : State) (out : List Sym) (v det : Bool) : (successCommit out v det s).obuf = Memory.ofStream out := rfl
@[simp] theorem successCommit_rng (s : State) (out : List Sym) (v det : Bool) : (successCommit out v det s).rng = s.rng := rfl
@[simp] theorem successCommit_host (s : State) (out : List Sym) (v det : Bool) : (successCommit out v det s).host = s.host := rfl

/-! ### resetCore -/

@[simp] theorem resetCore_params (s : State) : (resetCore s).params = s.params := rfl
@[simp] theorem resetCore_cmd (s : State) : (resetCore s).cmd = 0x00#8 := rfl
@[simp] theorem resetCore_status (s : State) : (resetCore s).status = 0x00#8 := rfl
@[simp] theorem resetCore_ilen (s : State) : (resetCore s).ilen = 0 := rfl
@[simp] theorem resetCore_klen (s : State) : (resetCore s).klen = 0 := rfl
@[simp] theorem resetCore_olen (s : State) : (resetCore s).olen = 0 := rfl
@[simp] theorem resetCore_rate (s : State) : (resetCore s).rate = 0#17 := rfl
@[simp] theorem resetCore_ibuf (s : State) : (resetCore s).ibuf = [] := rfl
@[simp] theorem resetCore_kbuf (s : State) : (resetCore s).kbuf = [] := rfl
@[simp] theorem resetCore_obuf (s : State) : (resetCore s).obuf = [] := rfl
@[simp] theorem resetCore_rng (s : State) : (resetCore s).rng = s.rng := rfl
@[simp] theorem resetCore_host (s : State) : (resetCore s).host = s.host := rfl

/-! ### reset -/

/-- A reset of CORE is the reset state with the source and the host kept (R161). -/
theorem resetCore_eq (s : State) : resetCore s = { State.resetWith s.params with rng := s.rng, host := s.host } := rfl

end Sys2Proof.Machine
end

