-- ==== Sys2Proof/Laws/Memory.lean ====
section
/-! SUPPORT. The laws of the buffers: reading after writing, the canonical form, and what a region holds. -/

namespace Sys2Proof.Machine

/-! ### Reading after writing -/

/-- A cell read after a write gives what was written there, and every other cell what it held. -/
theorem Memory.read_write (m : Memory) (i : Nat) (v : Sym) (j : Nat) :
    Memory.read (Memory.write m i v) j = if j = i then some v else Memory.read m j := by
  induction m with
  | nil => simp only [Memory.write, Memory.read, eq_comm]
  | cons c m ih =>
    obtain ⟨a, w⟩ := c
    simp only [Memory.write]
    split
    · simp only [Memory.read, eq_comm (a := i)]
    · split
      · subst_vars
        simp only [Memory.read, eq_comm (a := a)]
        split <;> rfl
      · simp only [Memory.read, ih]
        split
        · subst_vars
          rw [if_neg (by omega)]
        · rfl

theorem Memory.read_write_same (m : Memory) (i : Nat) (v : Sym) :
    Memory.read (Memory.write m i v) i = some v := by simp [Memory.read_write]

theorem Memory.read_write_other (m : Memory) {i j : Nat} (v : Sym) (h : j ≠ i) :
    Memory.read (Memory.write m i v) j = Memory.read m j := by simp [Memory.read_write, h]

/-! ### The canonical form -/

theorem Memory.risingFrom_mono {lo lo' : Nat} {m : Memory} (h : lo ≤ lo') (hm : Memory.risingFrom lo' m = true) :
    Memory.risingFrom lo m = true := by
  cases m with
  | nil => rfl
  | cons c m =>
    simp only [Memory.risingFrom, Bool.and_eq_true, decide_eq_true_eq] at hm ⊢
    exact ⟨by omega, hm.2⟩

theorem Memory.risingFrom_write {lo : Nat} {m : Memory} {i : Nat} (v : Sym) (hi : lo ≤ i)
    (hm : Memory.risingFrom lo m = true) : Memory.risingFrom lo (Memory.write m i v) = true := by
  induction m generalizing lo with
  | nil => simpa [Memory.write, Memory.risingFrom] using hi
  | cons c m ih =>
    obtain ⟨a, w⟩ := c
    simp only [Memory.risingFrom, Bool.and_eq_true, decide_eq_true_eq] at hm
    simp only [Memory.write]
    split
    · simpa [Memory.risingFrom, hi] using ⟨by omega, hm.2⟩
    · split
      · subst_vars
        simpa [Memory.risingFrom] using hm
      · simp only [Memory.risingFrom, Bool.and_eq_true, decide_eq_true_eq]
        exact ⟨hm.1, ih (by omega) hm.2⟩

/-- A write keeps the canonical form. -/
theorem Memory.wf_write {m : Memory} (i : Nat) (v : Sym) (hm : Memory.wf m = true) :
    Memory.wf (Memory.write m i v) = true := Memory.risingFrom_write v (Nat.zero_le i) hm

/-- A write of a cell the buffer has lists no cell beyond its capacity. -/
theorem Memory.within_write {cap : Nat} {m : Memory} {i : Nat} (v : Sym) (hi : i < cap)
    (hm : Memory.within cap m = true) : Memory.within cap (Memory.write m i v) = true := by
  simp only [Memory.within] at hm ⊢
  induction m with
  | nil => simpa [Memory.write] using hi
  | cons c m ih =>
    obtain ⟨a, w⟩ := c
    simp only [List.all_cons, Bool.and_eq_true, decide_eq_true_eq] at hm
    simp only [Memory.write]
    split
    · simp only [List.all_cons, Bool.and_eq_true, decide_eq_true_eq]
      exact ⟨hi, hm⟩
    · split
      · simp only [List.all_cons, Bool.and_eq_true, decide_eq_true_eq]
        exact ⟨hi, hm.2⟩
      · simp only [List.all_cons, Bool.and_eq_true, decide_eq_true_eq]
        exact ⟨hm.1, ih hm.2⟩

theorem Memory.risingFrom_ofStreamAt (i : Nat) (out : List Sym) :
    Memory.risingFrom i (Memory.ofStreamAt i out) = true := by
  induction out generalizing i with
  | nil => rfl
  | cons v vs ih => simp [Memory.ofStreamAt, Memory.risingFrom, ih]

/-- An output buffer is in canonical form. -/
theorem Memory.wf_ofStream (out : List Sym) : Memory.wf (Memory.ofStream out) = true :=
  Memory.risingFrom_ofStreamAt 0 out

theorem Memory.within_ofStreamAt {cap i : Nat} {out : List Sym} (h : i + out.length ≤ cap) :
    Memory.within cap (Memory.ofStreamAt i out) = true := by
  simp only [Memory.within]
  induction out generalizing i with
  | nil => rfl
  | cons v vs ih =>
    simp only [List.length_cons] at h
    simp only [Memory.ofStreamAt, List.all_cons, Bool.and_eq_true, decide_eq_true_eq]
    exact ⟨by omega, ih (by omega)⟩

/-- An output that fits lists no cell beyond the capacity. -/
theorem Memory.within_ofStream {cap : Nat} {out : List Sym} (h : out.length ≤ cap) :
    Memory.within cap (Memory.ofStream out) = true := Memory.within_ofStreamAt (by omega)

/-- The buffers of the reset state are in canonical form. -/
theorem State.resetWith_buffers_wf (p : Params) : Memory.wf (State.resetWith p).ibuf = true ∧
    Memory.wf (State.resetWith p).kbuf = true ∧ Memory.wf (State.resetWith p).obuf = true := ⟨rfl, rfl, rfl⟩

/-! ### Streams in a buffer -/

theorem Memory.read_ofStreamAt (i : Nat) (out : List Sym) (j : Nat) :
    Memory.read (Memory.ofStreamAt i out) j = if j < i then none else out[j - i]? := by
  induction out generalizing i with
  | nil => simp [Memory.ofStreamAt, Memory.read]
  | cons v vs ih =>
    simp only [Memory.ofStreamAt, Memory.read, ih]
    rcases Nat.lt_trichotomy j i with h | h | h
    · rw [if_neg (by omega), if_pos (by omega), if_pos h]
    · subst h; simp
    · rw [if_neg (by omega), if_neg (by omega), if_neg (by omega)]
      obtain ⟨k, rfl⟩ : ∃ k, j = i + 1 + k := ⟨j - (i + 1), by omega⟩
      rw [show i + 1 + k - i = k + 1 by omega, show i + 1 + k - (i + 1) = k by omega]
      rfl

/-- A cell of an output buffer reads as the output's element, and as no value past its end. -/
@[simp] theorem Memory.read_ofStream (out : List Sym) (j : Nat) :
    Memory.read (Memory.ofStream out) j = out[j]? := by
  simp [Memory.ofStream, Memory.read_ofStreamAt]

@[simp] theorem Memory.read_empty (j : Nat) : Memory.read [] j = none := rfl

/-- A region reads as a stream exactly when the stream has its length and each cell holds the stream's element. -/
theorem Memory.readRegion_eq_some (m : Memory) (i n : Nat) (vs : List Sym) :
    Memory.readRegion m i n = some vs ↔ vs.length = n ∧ ∀ k, k < n → Memory.read m (i + k) = vs[k]? := by
  induction n generalizing i vs with
  | zero =>
    simp only [Memory.readRegion, Option.some.injEq, Nat.not_lt_zero, false_imp_iff, implies_true, and_true]
    rw [List.length_eq_zero_iff, eq_comm]
  | succ n ih =>
    simp only [Memory.readRegion]
    constructor
    · intro h
      split at h
      · rename_i v ws hv hws
        obtain rfl := Option.some.inj h
        obtain ⟨hlen, hcell⟩ := (ih _ _).mp hws
        refine ⟨by simp [hlen], fun k hk => ?_⟩
        cases k with
        | zero => simpa using hv
        | succ k => simpa [Nat.add_assoc, Nat.add_comm 1] using hcell k (by omega)
      · exact absurd h (by simp)
    · rintro ⟨hlen, hcell⟩
      cases vs with
      | nil => simp at hlen
      | cons v ws =>
        have hv : Memory.read m i = some v := by simpa using hcell 0 (by omega)
        have hws : Memory.readRegion m (i + 1) n = some ws := by
          refine (ih _ _).mpr ⟨by simpa using hlen, fun k hk => ?_⟩
          simpa [Nat.add_assoc, Nat.add_comm 1] using hcell (k + 1) (by omega)
        rw [hv, hws]

/-- A region reads as some stream exactly when each of its cells holds a value. -/
theorem Memory.readRegion_isSome (m : Memory) (i n : Nat) :
    (∃ vs, Memory.readRegion m i n = some vs) ↔ ∀ k, k < n → ∃ v, Memory.read m (i + k) = some v := by
  induction n generalizing i with
  | zero => simp [Memory.readRegion]
  | succ n ih =>
    constructor
    · rintro ⟨vs, h⟩ k hk
      obtain ⟨hlen, hcell⟩ := (Memory.readRegion_eq_some m i (n + 1) vs).mp h
      exact ⟨vs[k], by rw [hcell k hk, List.getElem?_eq_getElem (by omega)]⟩
    · intro h
      obtain ⟨v, hv⟩ := h 0 (by omega)
      obtain ⟨vs, hvs⟩ := (ih (i + 1)).mpr fun k hk => by
        simpa [Nat.add_assoc, Nat.add_comm 1] using h (k + 1) (by omega)
      refine ⟨v :: vs, ?_⟩
      simp only [Nat.add_zero] at hv
      simp [Memory.readRegion, hv, hvs]

/-- The input stream has length `ILEN` and holds the cells of `IBUF` (R66). -/
theorem inputStream_eq_some (s : State) (bits : List Sym) :
    inputStream s = some bits ↔ bits.length = s.ilen ∧ ∀ k, k < s.ilen → Memory.read s.ibuf k = bits[k]? := by
  simpa [inputStream] using Memory.readRegion_eq_some s.ibuf 0 s.ilen bits

/-- The key has length `KLEN` and holds the cells of `KBUF` (R66). -/
theorem inputKey_eq_some (s : State) (key : List Sym) :
    inputKey s = some key ↔ key.length = s.klen ∧ ∀ k, k < s.klen → Memory.read s.kbuf k = key[k]? := by
  simpa [inputKey] using Memory.readRegion_eq_some s.kbuf 0 s.klen key

/-- The output stream after a success commit is the output committed (R148). -/
theorem outputStream_successCommit (out : List Sym) (v det : Bool) (s : State) :
    outputStream (successCommit out v det s) = some out := by
  simp [outputStream, Memory.readRegion_eq_some]

end Sys2Proof.Machine
end

