-- ==== Sys2Proof/Laws/Commands.lean ====
section
/-! SUPPORT. What each shared operation of the commands can do, said once: operand fetch, the two commits, the draws, the
checks, and one inversion of `exec`. -/

namespace Sys2Proof.Machine

/-! ### Operands -/

theorem withStream_of_some {s : State} {bits : List Sym} (h : inputStream s = some bits)
    (run : List Sym → Host.Outcome State Fault Refusal) : withStream s run = run bits := by
  simp [withStream, h]

theorem withKey_of_some {s : State} {key : List Sym} (h : inputKey s = some key)
    (run : List Sym → Host.Outcome State Fault Refusal) : withKey s run = run key := by
  simp [withKey, h]

/-- A command over its stream answers a next state only from a readable stream. -/
theorem withStream_next {s t : State} {run : List Sym → Host.Outcome State Fault Refusal}
    (h : withStream s run = .next t) : ∃ bits, inputStream s = some bits ∧ run bits = .next t := by
  unfold withStream at h
  split at h
  · exact ⟨_, ‹_›, h⟩
  · simp at h

/-- A command over its key answers a next state only from a readable key. -/
theorem withKey_next {s t : State} {run : List Sym → Host.Outcome State Fault Refusal}
    (h : withKey s run = .next t) : ∃ key, inputKey s = some key ∧ run key = .next t := by
  unfold withKey at h
  split at h
  · exact ⟨_, ‹_›, h⟩
  · simp at h

/-! ### Commits -/

/-- A commit of a result is the success commit of its output or the error commit of its error. -/
theorem commitStream_cases (r : Except ErrorName (List Sym)) (s : State) :
    (∃ out, r = .ok out ∧ commitStream r s = successCommit out false false s) ∨
    (∃ e, r = .error e ∧ commitStream r s = errorCommit e s) := by
  cases r with
  | ok out => exact .inl ⟨out, rfl, rfl⟩
  | error e => exact .inr ⟨e, rfl, rfl⟩

@[simp] theorem errField_okStatus (v det : Bool) : errField (okStatus v det) = 0#4 := by
  cases v <;> cases det <;> decide
@[simp] theorem vFlag_okStatus (v det : Bool) : vFlag (okStatus v det) = v := by
  cases v <;> cases det <;> decide
@[simp] theorem detFlag_okStatus (v det : Bool) : detFlag (okStatus v det) = det := by
  cases v <;> cases det <;> decide
@[simp] theorem reservedBits_okStatus (v det : Bool) : reservedBits (okStatus v det) = 0#2 := by
  cases v <;> cases det <;> decide
@[simp] theorem errField_errorStatus (e : ErrorName) : errField (errorStatus e) = errorCode e := by
  cases e <;> decide
@[simp] theorem vFlag_errorStatus (e : ErrorName) : vFlag (errorStatus e) = false := by
  cases e <;> decide
@[simp] theorem detFlag_errorStatus (e : ErrorName) : detFlag (errorStatus e) = false := by
  cases e <;> decide
@[simp] theorem reservedBits_errorStatus (e : ErrorName) : reservedBits (errorStatus e) = 0#2 := by
  cases e <;> decide
theorem errorCode_ne_zero (e : ErrorName) : errorCode e ≠ 0#4 := by cases e <;> decide

/-! ### Symbols -/

@[simp] theorem isBit_symOf (b : Bool) : isBit (symOf b) = true := by cases b <;> decide
@[simp] theorem bitVal_symOf (b : Bool) : bitVal (symOf b) = b := by cases b <;> decide

/-- A symbol that is a bit is the symbol of its bit (R70). -/
theorem symOf_bitVal {c : Sym} (h : isBit c = true) : symOf (bitVal c) = c := by
  simp only [isBit, Bool.or_eq_true, beq_iff_eq] at h
  rcases h with rfl | rfl <;> decide

/-! ### Checks -/

/-- The checks of VAL and STRIP pass exactly for an all-bit stream of whole codewords (R90). -/
theorem protectedChecks_ok (prot : List Sym) :
    protectedChecks prot = .ok () ↔ prot.length % 11 = 0 ∧ allBits prot = true := by
  unfold protectedChecks
  split <;> [skip; split] <;> simp_all

/-- The common cipher checks pass exactly for a non-empty all-bit stream and a non-empty key (R101). -/
theorem cipherChecks_ok (bits key : List Sym) :
    cipherChecks bits key = .ok () ↔ bits.length ≠ 0 ∧ key.length ≠ 0 ∧ allBits bits = true := by
  unfold cipherChecks
  split <;> [skip; split <;> [skip; split]] <;> simp_all

/-! ### Lengths -/

/-- A concatenation of blocks of one length. -/
theorem flatMap_range_length {α : Type} (f : Nat → List α) (k n : Nat) (h : ∀ g, (f g).length = k) :
    ((List.range n).flatMap f).length = k * n := by
  induction n with
  | zero => simp
  | succ n ih => rw [List.range_succ, List.flatMap_append, List.length_append, ih]; simp [h]; ring

/-- An output of `Encode` has 11 symbols for every data block (R84). -/
theorem encodeStream_length {bits out : List Sym} (h : encodeStream bits = .ok out) :
    out.length = encodedLength bits.length := by
  unfold encodeStream at h
  split at h <;> [skip; split at h] <;> simp at h
  subst h
  exact flatMap_range_length _ 11 _ fun g => rfl

/-- An output of `Strip` has 7 symbols for every codeword (R94). -/
theorem stripStream_length {prot out : List Sym} (h : stripStream prot = .ok out) :
    out.length = 7 * (prot.length / 11) := by
  unfold stripStream at h
  split at h <;> simp at h
  subst h
  exact flatMap_range_length _ 7 _ fun g => rfl

@[simp] theorem xorFrom_length (kb : List Bool) (p : Nat) (bits : List Sym) :
    (xorFrom kb p bits).length = bits.length := by
  induction bits generalizing p with
  | nil => rfl
  | cons c cs ih => simp [xorFrom, ih]

/-- Element by element, the xor-stream (R103). -/
theorem xorFrom_getElem? (kb : List Bool) (p : Nat) (bits : List Sym) (i : Nat) :
    (xorFrom kb p bits)[i]? =
      (bits[i]?).map fun c => symOf (bitVal c ^^ kb.getD ((p + i) % kb.length) false) := by
  induction bits generalizing p i with
  | nil => simp [xorFrom]
  | cons c cs ih =>
    cases i with
    | zero => simp [xorFrom]
    | succ i => simp [xorFrom, ih, Nat.add_assoc, Nat.add_comm 1]

/-! ### Draws -/

/-- An answer already fixed is the answer (R153). -/
theorem drawFor_of_script {r : RandomSource} {i : Nat} {a : DrawValue} (h : r.script[i]? = some a) : drawFor r i = a := by
  simp [drawFor, List.getD_eq_getElem?_getD, h]

/-- One draw is answered by the draw for position 0, and moves the source on by one (R122). -/
theorem draw_eq (r : RandomSource) : draw r = (drawFor r 0, sourceAfter 1 r) := by
  obtain ⟨script, asked⟩ := r
  cases script <;> simp [draw, drawFor, sourceAfter]

@[simp] theorem sourceAfter_zero (r : RandomSource) : sourceAfter 0 r = r := by
  simp [sourceAfter]

theorem sourceAfter_sourceAfter (m n : Nat) (r : RandomSource) :
    sourceAfter m (sourceAfter n r) = sourceAfter (n + m) r := by
  simp [sourceAfter, List.drop_drop, Nat.add_assoc]

theorem drawFor_sourceAfter (n i : Nat) (r : RandomSource) : drawFor (sourceAfter n r) i = drawFor r (n + i) := by
  simp [drawFor, sourceAfter, List.getD_eq_getElem?_getD, List.getElem?_drop, Nat.add_assoc]

@[simp] theorem nextDraws_length (n : Nat) (r : RandomSource) : (nextDraws n r).length = n := by
  induction n generalizing r with
  | zero => rfl
  | succ n ih => simp [nextDraws, ih]

/-- The next draws are the draws for the positions from 0 on (R122). -/
theorem nextDraws_eq (n : Nat) (r : RandomSource) : nextDraws n r = (List.range n).map (drawFor r) := by
  induction n generalizing r with
  | zero => rfl
  | succ n ih =>
    rw [nextDraws, ih, draw_eq, List.range_succ_eq_map, List.map_cons, List.map_map]
    simp only [List.cons.injEq, true_and]
    exact List.map_congr_left fun i _ => by
      simp [drawFor_sourceAfter, Nat.add_comm]

/-- A corruption asks for one draw a position and moves the source on by as many (R122). -/
theorem corrupt_source (rate : Rate) (prot : List Sym) (r : RandomSource) :
    (corrupt rate prot r).2 = sourceAfter prot.length r := by
  induction prot generalizing r with
  | nil => simp [corrupt]
  | cons c cs ih => simp [corrupt, ih, draw_eq, sourceAfter_sourceAfter, Nat.add_comm]

/-- Position `i` of a corruption is decided by the draw for position `i` (R122 to R124). -/
theorem corrupt_getElem? (rate : Rate) (prot : List Sym) (r : RandomSource) (i : Nat) :
    (corrupt rate prot r).1[i]? = (prot[i]?).map fun c => corruptSym (drawFor r i) rate c := by
  induction prot generalizing r i with
  | nil => simp [corrupt]
  | cons c cs ih =>
    cases i with
    | zero => simp [corrupt, draw_eq]
    | succ i => simp [corrupt, ih, draw_eq, drawFor_sourceAfter, Nat.add_comm]

/-- A corruption keeps the length (R125). -/
@[simp] theorem corrupt_length (rate : Rate) (prot : List Sym) (r : RandomSource) :
    (corrupt rate prot r).1.length = prot.length := by
  induction prot generalizing r with
  | nil => rfl
  | cons c cs ih => simp [corrupt, ih]

/-! ### One command -/

/-- What a command that completes does to the state: the error commit, or the success commit of some output and the source
moved on (R147, R148). -/
theorem exec_next {i : Instr} {s t : State} (h : exec i s = .next t) :
    (∃ e, t = errorCommit e s) ∨
    (∃ out v det n, t = (successCommit out v det s).setSource (sourceAfter n s.rng)) := by
  have commit : ∀ r, t = commitStream r s → (∃ e, t = errorCommit e s) ∨
      (∃ out v det n, t = (successCommit out v det s).setSource (sourceAfter n s.rng)) := by
    rintro r rfl
    rcases commitStream_cases r s with ⟨out, -, h⟩ | ⟨e, -, h⟩
    · exact .inr ⟨out, false, false, 0, by rw [h, sourceAfter_zero]; rfl⟩
    · exact .inl ⟨e, h⟩
  have cipher : ∀ f, runCipher f s = .next t → (∃ e, t = errorCommit e s) ∨
      (∃ out v det n, t = (successCommit out v det s).setSource (sourceAfter n s.rng)) := by
    intro f h
    obtain ⟨bits, -, h⟩ := withStream_next h
    obtain ⟨key, -, h⟩ := withKey_next h
    exact commit _ (by simpa using h.symm)
  cases i with
  | enc =>
    obtain ⟨bits, -, h⟩ := withStream_next h
    split at h
    · simp at h
    · exact commit _ (by simpa using h.symm)
  | val =>
    obtain ⟨bits, -, h⟩ := withStream_next h
    split at h <;> obtain rfl := Host.Outcome.next.inj h
    · exact .inr ⟨[], _, false, 0, by rw [sourceAfter_zero]; rfl⟩
    · exact .inl ⟨_, rfl⟩
  | strip =>
    obtain ⟨bits, -, h⟩ := withStream_next h
    exact commit _ (by simpa using h.symm)
  | encrVigenere => exact cipher _ h
  | encrCaesar => exact cipher _ h
  | decrVigenere => exact cipher _ h
  | decrCaesar => exact cipher _ h
  | sim =>
    obtain ⟨bits, -, h⟩ := withStream_next h
    split at h <;> obtain rfl := Host.Outcome.next.inj h
    · rename_i out det r hr _
      unfold simulateStream at hr
      split at hr <;> simp at hr
      obtain ⟨-, -, rfl⟩ := hr
      exact .inr ⟨out, false, det, bits.length, by rw [corrupt_source]⟩
    · exact .inl ⟨_, rfl⟩
  | encrUnreg | decrUnreg | illegalOp0 | illegalOp7 | illegalOp8 | illegalEncCid | illegalValCid | illegalStripCid
  | illegalSimCid => exact .inl ⟨_, (Host.Outcome.next.inj h).symm⟩

end Sys2Proof.Machine
end

