-- ==== Sys2Proof/Laws/Exec.lean ====
section
/-! SUPPORT. Every command as one pure function of what it reads, and one commit of that function's result (R30). -/

namespace Sys2Proof.Machine

/-- What a command makes of its stream, key, rate and draws: an error, or its output, its flags `V` and `DET`, and how many
draws it takes. The arguments a command does not read (R66) it ignores. -/
def commandResult (i : Instr) (bits key : List Sym) (rate : Rate) (draws : List DrawValue) :
    Except ErrorName (List Sym × Bool × Bool × Nat) :=
  match i with
  | .enc => (encodeStream bits).map fun out => (out, false, false, 0)
  | .val => (validateStream bits).map fun v => ([], v, false, 0)
  | .strip => (stripStream bits).map fun out => (out, false, false, 0)
  | .encrVigenere => (xorStream bits key).map fun out => (out, false, false, 0)
  | .decrVigenere => (xorStream bits key).map fun out => (out, false, false, 0)
  | .encrCaesar => (bitShiftEnc bits key).map fun out => (out, false, false, 0)
  | .decrCaesar => (bitShiftDec bits key).map fun out => (out, false, false, 0)
  | .sim =>
    if rateInRange rate = false then .error .rangeError
    else
      let out := List.zipWith (fun u c => corruptSym u rate c) draws bits
      .ok (out, false, detected out, bits.length)
  | .encrUnreg _ => .error .unknownCipherError
  | .decrUnreg _ => .error .unknownCipherError
  | .illegalOp0 _ => .error .illegalCommand
  | .illegalOp7 _ => .error .illegalCommand
  | .illegalOp8 _ _ => .error .illegalCommand
  | .illegalEncCid _ => .error .illegalCommand
  | .illegalValCid _ => .error .illegalCommand
  | .illegalStripCid _ => .error .illegalCommand
  | .illegalSimCid _ => .error .illegalCommand

/-- The commit of a result (R147, R148), the source moved on by the draws taken. -/
def commitResult (r : Except ErrorName (List Sym × Bool × Bool × Nat)) (s : State) : State :=
  match r with
  | .ok (out, v, det, n) => (successCommit out v det s).setSource (sourceAfter n s.rng)
  | .error e => errorCommit e s

/-- A corruption position by position (R122 to R124). -/
theorem corrupt_eq_zipWith (rate : Rate) (prot : List Sym) (r : RandomSource) :
    (corrupt rate prot r).1 = List.zipWith (fun u c => corruptSym u rate c) (nextDraws prot.length r) prot := by
  induction prot generalizing r with
  | nil => rfl
  | cons c cs ih => simp [corrupt, nextDraws, ih]

/-- A commit that takes no draw leaves the source as it was. -/
@[simp] theorem successCommit_setSource_self (out : List Sym) (v det : Bool) (s : State) :
    (successCommit out v det s).setSource s.rng = successCommit out v det s := rfl

theorem commitStream_eq (r : Except ErrorName (List Sym)) (s : State) :
    commitStream r s = commitResult (r.map fun out => (out, false, false, 0)) s := by
  cases r <;> simp [commitStream, commitResult, Except.map]

/-- A command over readable operands, ENC's output fitting, commits its result. -/
theorem exec_eq {i : Instr} {s : State} {bits key : List Sym}
    (hbits : readsStream i = true → inputStream s = some bits) (hkey : readsKey i = true → inputKey s = some key)
    (hfit : i = .enc → encodedLength s.ilen ≤ s.params.nMax) :
    exec i s = .next (commitResult (commandResult i bits key s.rate (nextDraws bits.length s.rng)) s) := by
  cases i with
  | enc =>
    simp only [exec, execEnc, withStream_of_some (hbits rfl), if_neg (Nat.not_lt.mpr (hfit rfl)), commitStream_eq]
    rfl
  | val =>
    simp only [exec, execVal, withStream_of_some (hbits rfl), commandResult]
    cases validateStream bits <;> simp [Except.map, commitResult]
  | strip =>
    simp only [exec, execStrip, withStream_of_some (hbits rfl), commitStream_eq]
    rfl
  | encrVigenere | encrCaesar | decrVigenere | decrCaesar =>
    simp only [exec, execEncrVigenere, execEncrCaesar, execDecrVigenere, execDecrCaesar, runCipher,
      withStream_of_some (hbits rfl), withKey_of_some (hkey rfl), commitStream_eq]
    rfl
  | sim =>
    simp only [exec, execSim, withStream_of_some (hbits rfl), commandResult, simulateStream]
    split
    · rename_i heq
      split at heq <;> simp at heq
      obtain ⟨rfl, rfl, rfl⟩ := heq
      simp [commitResult, *, corrupt_eq_zipWith, corrupt_source]
    · rename_i heq
      split at heq <;> simp at heq
      subst heq
      simp [commitResult, *]
  | encrUnreg | decrUnreg | illegalOp0 | illegalOp7 | illegalOp8 | illegalEncCid | illegalValCid | illegalStripCid
  | illegalSimCid => rfl

/-- A command whose stream is not readable is refused (R165 (c)). -/
theorem exec_stream_unreadable {i : Instr} {s : State} (hi : readsStream i = true) (h : inputStream s = none) :
    exec i s = .refused .operandCellHoldsNoValue := by
  cases i <;> simp [readsStream] at hi <;>
    simp [exec, execEnc, execVal, execStrip, execEncrVigenere, execEncrCaesar, execDecrVigenere, execDecrCaesar, execSim,
      runCipher, withStream, h]

/-- A command whose key is not readable is refused (R165 (c)). -/
theorem exec_key_unreadable {i : Instr} {s : State} (hi : readsKey i = true) (h : inputKey s = none) :
    exec i s = .refused .operandCellHoldsNoValue := by
  cases i <;> simp [readsKey] at hi <;>
    simp only [exec, execEncrVigenere, execEncrCaesar, execDecrVigenere, execDecrCaesar, runCipher, withStream, withKey,
      h] <;> split <;> rfl

/-- ENC over a readable stream whose output does not fit is refused (R165 (e)). -/
theorem exec_enc_unfit {s : State} {bits : List Sym} (h : inputStream s = some bits)
    (hfit : s.params.nMax < encodedLength s.ilen) : exec .enc s = .refused .encodeOutputDoesNotFit := by
  simp [exec, execEnc, withStream_of_some h, hfit]

/-- A command that completes had readable operands, an output that fits for ENC, and commits its result. -/
theorem exec_next_result {i : Instr} {s t : State} (h : exec i s = .next t) :
    ∃ bits key, (readsStream i = true → inputStream s = some bits) ∧ (readsKey i = true → inputKey s = some key) ∧
      (i = .enc → encodedLength s.ilen ≤ s.params.nMax) ∧
      t = commitResult (commandResult i bits key s.rate (nextDraws bits.length s.rng)) s := by
  have hbits : ∃ bits, readsStream i = true → inputStream s = some bits := by
    cases hs : inputStream s with
    | some bits => exact ⟨bits, fun _ => rfl⟩
    | none =>
      refine ⟨[], fun hi => ?_⟩
      rw [exec_stream_unreadable hi hs] at h
      cases h
  have hkey : ∃ key, readsKey i = true → inputKey s = some key := by
    cases hk : inputKey s with
    | some key => exact ⟨key, fun _ => rfl⟩
    | none =>
      refine ⟨[], fun hi => ?_⟩
      rw [exec_key_unreadable hi hk] at h
      cases h
  obtain ⟨bits, hbits⟩ := hbits
  obtain ⟨key, hkey⟩ := hkey
  have hfit : i = .enc → encodedLength s.ilen ≤ s.params.nMax := by
    rintro rfl
    by_contra hn
    rw [exec_enc_unfit (hbits rfl) (by omega)] at h
    cases h
  refine ⟨bits, key, hbits, hkey, hfit, ?_⟩
  rw [exec_eq hbits hkey hfit] at h
  exact (Host.Outcome.next.inj h).symm

end Sys2Proof.Machine
end

