-- ==== Sys2Proof/Laws/HostAccess.lean ====
section
/-! SUPPORT. What one access of the host can do, said once for each kind of access, and what one step does. -/

namespace Sys2Proof.Machine

/-- The numbers that name a register (R13). -/
theorem readRegister_isSome (s : State) (n : Nat) : (∃ v, readRegister s n = some v) ↔ n ≤ 5 := by
  match n with
  | 0 | 1 | 2 | 3 | 4 | 5 => simp [readRegister]
  | n + 6 => simp [readRegister]

/-- A register read that completes is answered the register's value and changes nothing else (R13, R51). -/
theorem hostReadRegister_next {n : Nat} {s t : State} (h : hostReadRegister n s = .next t) :
    ∃ v, readRegister s n = some v ∧ t = s.hear v := by
  unfold hostReadRegister at h
  split at h
  · exact ⟨_, ‹_›, (Host.Outcome.next.inj h).symm⟩
  · simp at h

/-- A value wider than the register is refused, whichever the register (R165 (f); log 7). -/
theorem hostWriteRegister_tooWide {n v w : Nat} {s : State} (hw : registerWidth s.params n = some w) (hv : 2 ^ w ≤ v) :
    hostWriteRegister n v s = .refused .valueWiderThanRegister := by
  simp [hostWriteRegister, hw, hv]

/-- A register write that completes: the number names a register, the value fits it, and it is a command, a write of a
length within its capacity, a write of the rate, or an ignored write of a read-only register (R13). -/
theorem hostWriteRegister_next {n v : Nat} {s t : State} (h : hostWriteRegister n v s = .next t) :
    (n = 0 ∧ v < 256 ∧ runCommand (BitVec.ofNat 8 v) s = .next t) ∨
    (n = 2 ∧ v ≤ s.params.nMax ∧ t = s.setIlen v) ∨
    (n = 3 ∧ v ≤ s.params.kMax ∧ t = s.setKlen v) ∨
    (n = 5 ∧ v < 2 ^ 17 ∧ t = s.setRate (BitVec.ofNat 17 v)) ∨
    ((n = 1 ∨ n = 4) ∧ t = s) := by
  unfold hostWriteRegister at h
  split at h
  · simp at h
  · rename_i w hw
    split at h
    · simp at h
    · rename_i hv
      match n with
      | 0 =>
        simp only [registerWidth, Option.some.injEq] at hw
        subst hw
        exact .inl ⟨rfl, by omega, h⟩
      | 1 => exact .inr (.inr (.inr (.inr ⟨.inl rfl, (Host.Outcome.next.inj h).symm⟩)))
      | 2 =>
        simp only [writeFitting] at h
        split at h
        · simp at h
        · exact .inr (.inl ⟨rfl, by omega, (Host.Outcome.next.inj h).symm⟩)
      | 3 =>
        simp only [writeFitting] at h
        split at h
        · simp at h
        · exact .inr (.inr (.inl ⟨rfl, by omega, (Host.Outcome.next.inj h).symm⟩))
      | 4 => exact .inr (.inr (.inr (.inr ⟨.inr rfl, (Host.Outcome.next.inj h).symm⟩)))
      | 5 =>
        simp only [registerWidth, Option.some.injEq] at hw
        subst hw
        exact .inr (.inr (.inr (.inl ⟨rfl, by omega, (Host.Outcome.next.inj h).symm⟩)))
      | n + 6 => simp [registerWidth] at hw

/-- A cell read that completes is answered the cell's value and changes nothing else (R41, R51). -/
theorem hostReadCell_next {b : Buffer} {i : Nat} {s t : State} (h : hostReadCell b i s = .next t) :
    i < capacity s.params b ∧ ∃ v, Memory.read (s.buffer b) i = some v ∧ t = s.hear v.toNat := by
  unfold hostReadCell at h
  split at h
  · simp at h
  · split at h
    · exact ⟨by omega, _, ‹_›, (Host.Outcome.next.inj h).symm⟩
    · simp at h

/-- A cell write that completes stores the value, or is ignored for `OBUF` (R27, R41). -/
theorem hostWriteCell_next {b : Buffer} {i : Nat} {v : Sym} {s t : State} (h : hostWriteCell b i v s = .next t) :
    i < capacity s.params b ∧
    ((b = .ibuf ∧ t = s.writeIbuf i v) ∨ (b = .kbuf ∧ t = s.writeKbuf i v) ∨ (b = .obuf ∧ t = s)) := by
  unfold hostWriteCell at h
  split at h
  · simp at h
  · refine ⟨by omega, ?_⟩
    cases b with
    | ibuf => exact .inl ⟨rfl, (Host.Outcome.next.inj h).symm⟩
    | kbuf => exact .inr (.inl ⟨rfl, (Host.Outcome.next.inj h).symm⟩)
    | obuf => exact .inr (.inr ⟨rfl, (Host.Outcome.next.inj h).symm⟩)

/-- A reset during a command leaves the reset of CORE, with the source moved on by some of the command's draws (R160). -/
theorem resetDuringCommand_next {w : BitVec 8} {d : Nat} {s t : State} (h : resetDuringCommand w d s = .next t) :
    ∃ u, runCommand w s = .next u ∧
      t = (resetCore s).setSource (sourceAfter (min d (u.rng.asked - s.rng.asked)) s.rng) := by
  unfold resetDuringCommand at h
  split at h
  · exact ⟨_, ‹_›, (Host.Outcome.next.inj h).symm⟩
  · simp at h
  · simp at h

/-- One step: nothing with an idle host, else the host's next item on the rest of its list (R53, R62). -/
theorem step_cases {s t : State} (h : step s = .next t) :
    (s.host.pending = [] ∧ t = s) ∨
    (∃ a rest, s.host.pending = .access a :: rest ∧ performAccess a (s.setPending rest) = .next t) ∨
    (∃ p rest ops, s.host.pending = .pseudo p :: rest ∧ expand p (s.setPending rest) = some ops ∧
      t = s.setPending (ops ++ rest)) := by
  unfold step performNext at h
  split at h
  · exact .inl ⟨‹_›, (Host.Outcome.next.inj h).symm⟩
  · rename_i op rest hp
    cases op with
    | access a => exact .inr (.inl ⟨a, rest, hp, h⟩)
    | pseudo p =>
      simp only [performOp] at h
      split at h
      · exact .inr (.inr ⟨p, rest, _, hp, ‹_›, (Host.Outcome.next.inj h).symm⟩)
      · simp at h

/-- With nothing to do, nothing happens (R62, R152). -/
theorem step_idle {s : State} (h : s.host.pending = []) : step s = .next s := by
  simp [step, performNext, h]

/-- An access is performed on the rest of the list. -/
theorem step_access {s : State} {a : Access} {rest : List HostOp} (h : s.host.pending = .access a :: rest) :
    step s = performAccess a (s.setPending rest) := by
  simp [step, performNext, h, performOp]

end Sys2Proof.Machine
end

