-- ==== Sys2Proof/Laws/PerInstr.lean ====
section
/-! SUPPORT. Statements about every command as syntax, one lemma per constructor. -/

namespace Sys2Proof.Laws.EncodeMatchesRow

/-- The byte of a well-formed command belongs to the row of the command map that bears its mnemonic, and to no other row
(30_encoding.md R63). -/
def Statement (i : Instr) : Prop :=
  i.wf = true → (commandMap.filter fun r => r.holds (encodeByte i)).map (·.mnemonic) = [i.mnemonic]

theorem enc : Statement .enc := fun _ => by decide
theorem val : Statement .val := fun _ => by decide
theorem strip : Statement .strip := fun _ => by decide
theorem encrVigenere : Statement .encrVigenere := fun _ => by decide
theorem encrCaesar : Statement .encrCaesar := fun _ => by decide
theorem decrVigenere : Statement .decrVigenere := fun _ => by decide
theorem decrCaesar : Statement .decrCaesar := fun _ => by decide
theorem sim : Statement .sim := fun _ => by decide
theorem encrUnreg (cid : BitVec 4) : Statement (.encrUnreg cid) := by revert cid; unfold Statement; decide
theorem decrUnreg (cid : BitVec 4) : Statement (.decrUnreg cid) := by revert cid; unfold Statement; decide
theorem illegalOp0 (cid : BitVec 4) : Statement (.illegalOp0 cid) := by revert cid; unfold Statement; decide
theorem illegalOp7 (cid : BitVec 4) : Statement (.illegalOp7 cid) := by revert cid; unfold Statement; decide
theorem illegalOp8 (cid : BitVec 4) (low : BitVec 3) : Statement (.illegalOp8 cid low) := by
  revert cid low; unfold Statement; decide
theorem illegalEncCid (cid : BitVec 4) : Statement (.illegalEncCid cid) := by revert cid; unfold Statement; decide
theorem illegalValCid (cid : BitVec 4) : Statement (.illegalValCid cid) := by revert cid; unfold Statement; decide
theorem illegalStripCid (cid : BitVec 4) : Statement (.illegalStripCid cid) := by revert cid; unfold Statement; decide
theorem illegalSimCid (cid : BitVec 4) : Statement (.illegalSimCid cid) := by revert cid; unfold Statement; decide

end Sys2Proof.Laws.EncodeMatchesRow
end

