-- ==== Sys2Proof/Tests/Slice0.lean ====
section
/-! SUPPORT. Tests of one step each, their expected values from spec/95_test_vectors.md or worked out by hand from the
rules, and for every statement of the certificate that has hypotheses a witness that they can be met together. -/

namespace Sys2Proof.Tests

open Sys2Proof.Machine

/-! ### Helpers -/

/-- The stream written as a binary numeral of `n` digits, leftmost first. -/
def bin (n : Nat) (digits : Nat) : List Sym :=
  (List.range n).map fun i => if digits.testBit (n - 1 - i) then 0x31#8 else 0x30#8

/-- Decimal digits as key characters. -/
def dec (digits : List Nat) : List Sym := digits.map fun d => BitVec.ofNat 8 (0x30 + d)

/-- A machine right after reset with `N_MAX = 64` and `K_MAX = 32`. -/
def machine : State := State.resetWith { nMax := 64, kMax := 32 }

/-- That machine with a stream and a key loaded. -/
def loaded (stream key : List Sym) : State :=
  { machine with ibuf := Memory.ofStream stream, ilen := stream.length, kbuf := Memory.ofStream key, klen := key.length }

/-- That machine with a stream, a rate and scripted draws. -/
def simState (stream : List Sym) (rate : Rate) (draws : List DrawValue) : State :=
  { loaded stream [] with rate := rate, rng := { script := draws, asked := 0 } }

/-- The outcome is a next state. -/
def completes : Host.Outcome State Fault Refusal → Bool
  | .next _ => true
  | .fault _ => false
  | .refused _ => false

/-- The next state of an outcome, `machine` where there is none. -/
def landed : Host.Outcome State Fault Refusal → State
  | .next t => t
  | .fault _ => machine
  | .refused _ => machine

/-- The refusal of an outcome. -/
def refusal : Host.Outcome State Fault Refusal → Option Refusal
  | .next _ => none
  | .fault _ => none
  | .refused r => some r

theorem completes_eq {o : Host.Outcome State Fault Refusal} (h : completes o = true) : o = .next (landed o) := by
  cases o with
  | next t => rfl
  | fault f => cases h
  | refused r => cases h

/-- What a command that the host writes to `CMD` leaves: `STATUS`, `OLEN` and the output stream, after one step. -/
def result (byte : BitVec 8) (s : State) : Option (BitVec 8 × Nat × Option (List Sym)) :=
  let o := step { s with host := { s.host with pending := [.access (.writeRegister 0 byte.toNat)] } }
  if completes o then some ((landed o).status, (landed o).olen, outputStream (landed o)) else none

/-- The same for a stream and a key. -/
def run (byte : BitVec 8) (stream key : List Sym) : Option (BitVec 8 × Nat × Option (List Sym)) :=
  result byte (loaded stream key)

/-- The same for SIM. -/
def runSim (stream : List Sym) (rate : Rate) (draws : List DrawValue) : Option (BitVec 8 × Nat × Option (List Sym)) :=
  result 0x06#8 (simState stream rate draws)

/-! ### Well-formedness: an ill-formed term for each check -/

theorem test_wf_refuses_encrUnreg : Instr.wf (.encrUnreg 1#4) = false := by decide
theorem test_wf_refuses_decrUnreg : Instr.wf (.decrUnreg 0#4) = false := by decide
theorem test_wf_refuses_illegalEncCid : Instr.wf (.illegalEncCid 0#4) = false := by decide
theorem test_wf_refuses_illegalValCid : Instr.wf (.illegalValCid 0#4) = false := by decide
theorem test_wf_refuses_illegalStripCid : Instr.wf (.illegalStripCid 0#4) = false := by decide
theorem test_wf_refuses_illegalSimCid : Instr.wf (.illegalSimCid 0#4) = false := by decide

/-! ### Decoding: a byte for each constructor, `CID` in bits 7:4 and `OP` in bits 3:0 (30_encoding.md R60, R63) -/

theorem test_decode_enc : decode [0b0000_0001#8] = .ok (.enc, []) := by rfl
theorem test_decode_val : decode [0b0000_0010#8] = .ok (.val, []) := by rfl
theorem test_decode_strip : decode [0b0000_0011#8] = .ok (.strip, []) := by rfl
theorem test_decode_encrVigenere : decode [0b0000_0100#8] = .ok (.encrVigenere, []) := by rfl
theorem test_decode_encrCaesar : decode [0b0001_0100#8] = .ok (.encrCaesar, []) := by rfl
theorem test_decode_decrVigenere : decode [0b0000_0101#8] = .ok (.decrVigenere, []) := by rfl
theorem test_decode_decrCaesar : decode [0b0001_0101#8] = .ok (.decrCaesar, []) := by rfl
theorem test_decode_sim : decode [0b0000_0110#8] = .ok (.sim, []) := by rfl
theorem test_decode_encrUnreg : decode [0b0010_0100#8] = .ok (.encrUnreg 2#4, []) := by rfl
theorem test_decode_decrUnreg : decode [0b1111_0101#8] = .ok (.decrUnreg 15#4, []) := by rfl
theorem test_decode_illegalOp0 : decode [0b1010_0000#8] = .ok (.illegalOp0 10#4, []) := by rfl
theorem test_decode_illegalOp7 : decode [0b0101_0111#8] = .ok (.illegalOp7 5#4, []) := by rfl
theorem test_decode_illegalOp8 : decode [0b0011_1101#8] = .ok (.illegalOp8 3#4 5#3, []) := by rfl
theorem test_decode_illegalEncCid : decode [0b0001_0001#8] = .ok (.illegalEncCid 1#4, []) := by rfl
theorem test_decode_illegalValCid : decode [0b0010_0010#8] = .ok (.illegalValCid 2#4, []) := by rfl
theorem test_decode_illegalStripCid : decode [0b0011_0011#8] = .ok (.illegalStripCid 3#4, []) := by rfl
theorem test_decode_illegalSimCid : decode [0b0001_0110#8] = .ok (.illegalSimCid 1#4, []) := by rfl

/-- The notation of R71: `ENCR.2`, `DECR.15`, `CMD 0x00` (vectors V49a, V49b, V49d). -/
theorem test_assemble : assemble (.encrN 0) = 0x24#8 ∧ assemble (.decrN 13) = 0xF5#8 ∧ assemble (.raw 0#8) = 0x00#8 := by
  decide

/-! ### One command each (vectors of spec/95_test_vectors.md) -/

/-- V6: two blocks, the second padded. -/
theorem test_enc_two_blocks : run 0x01#8 (bin 8 0b10110011) [] =
    some (0x00#8, 22, some (bin 22 0b1010011100111100000000)) := by decide
/-- V9: the third symbol is no bit. -/
theorem test_enc_charset : run 0x01#8 (dec [0, 1, 2]) [] = some (0x02#8, 0, some []) := by decide
/-- V19: the second block is bad, the first good. -/
theorem test_val_second_block_bad : run 0x02#8 (bin 22 0b1010011100111100000001) [] = some (0x00#8, 0, some []) := by
  decide
/-- V13: three flips make another valid word. -/
theorem test_val_undetected : run 0x02#8 (bin 11 0b01000111001) [] = some (0x10#8, 0, some []) := by decide
/-- V20d: an invalid block is stripped as it stands. -/
theorem test_strip_invalid_block : run 0x03#8 (bin 11 0b10000111001) [] =
    some (0x00#8, 7, some (bin 7 0b0011001)) := by decide
/-- V20f: ten symbols. -/
theorem test_strip_length : run 0x03#8 (bin 10 0b1010011100) [] = some (0x03#8, 0, some []) := by decide
/-- V21: key `"K"`, cycled after eight bits. -/
theorem test_encrVigenere_cycles : run 0x04#8 (bin 10 0b1010101010) [0x4B#8] =
    some (0x00#8, 10, some (bin 10 0b1110000111)) := by decide
/-- V27: both operands empty. -/
theorem test_encrVigenere_empty : run 0x04#8 [] [] = some (0x01#8, 0, some []) := by decide
/-- V22: the inverse of V21. -/
theorem test_decrVigenere : run 0x05#8 (bin 10 0b1110000111) [0x4B#8] =
    some (0x00#8, 10, some (bin 10 0b1010101010)) := by decide
/-- V29: the empty key is reported before the symbol that is no bit. -/
theorem test_decrVigenere_key_first : run 0x05#8 [0x31#8, 0x78#8, 0x31#8] [] = some (0x04#8, 0, some []) := by decide
/-- V33: key `"-3"`. -/
theorem test_encrCaesar_negative_odd : run 0x14#8 (bin 11 0b10100111001) (0x2D#8 :: dec [3]) =
    some (0x00#8, 11, some (bin 11 0b01011000110)) := by decide
/-- V46: key `"z"` and a symbol that is no bit. -/
theorem test_encrCaesar_charset_first : run 0x14#8 [0x31#8, 0x78#8, 0x31#8] [0x7A#8] = some (0x02#8, 0, some []) := by
  decide
/-- V37: the inverse of V30. -/
theorem test_decrCaesar : run 0x15#8 (bin 11 0b01011000110) (dec [3]) =
    some (0x00#8, 11, some (bin 11 0b10100111001)) := by decide
/-- V41 on DECR: a sign alone is no numeral. -/
theorem test_decrCaesar_sign_alone : run 0x15#8 (bin 3 0b101) [0x2B#8] = some (0x04#8, 0, some []) := by decide
/-- V53: one draw below the rate, one equal to it. -/
theorem test_sim_one_flip : runSim (bin 11 0b10100111001) 0x08000#17 [0x9000#16, 0x9000#16, 0x1000#16, 0x9000#16,
    0xFFFF#16, 0x8000#16, 0x8001#16, 0xC000#16, 0xA000#16, 0xB000#16, 0xD000#16] =
    some (0x20#8, 11, some (bin 11 0b10000111001)) := by decide
/-- V52: a rate above one. -/
theorem test_sim_range : runSim (bin 11 0b10100111001) 0x10001#17 [] = some (0x06#8, 0, some []) := by decide
/-- V49a: `ENCR.2`, its operands never written. -/
theorem test_encrUnreg : result 0x24#8 { machine with ilen := 5, klen := 5 } = some (0x05#8, 0, some []) := by decide
/-- V49b: `DECR.15`. -/
theorem test_decrUnreg : result 0xF5#8 machine = some (0x05#8, 0, some []) := by decide
/-- V49d: byte 0x00. -/
theorem test_illegalOp0 : result 0x00#8 machine = some (0x07#8, 0, some []) := by decide
/-- V49e: byte 0x07. -/
theorem test_illegalOp7 : result 0x07#8 machine = some (0x07#8, 0, some []) := by decide
/-- V49e: byte 0xFF. -/
theorem test_illegalOp8 : result 0xFF#8 machine = some (0x07#8, 0, some []) := by decide
/-- V49f: byte 0x11. -/
theorem test_illegalEncCid : result 0x11#8 machine = some (0x07#8, 0, some []) := by decide
/-- V49g: byte 0x22. -/
theorem test_illegalValCid : result 0x22#8 machine = some (0x07#8, 0, some []) := by decide
/-- V49g: byte 0x33. -/
theorem test_illegalStripCid : result 0x33#8 machine = some (0x07#8, 0, some []) := by decide
/-- V49g: byte 0x16. -/
theorem test_illegalSimCid : result 0x16#8 machine = some (0x07#8, 0, some []) := by decide

/-! ### Accesses and reset -/

/-- V71: ENC is the first command after the reset of a machine with any capacities. -/
theorem test_reset_enc : (landed (step (State.reset.withFetchWord 8 0x01))).status = 0x01#8 := by decide
/-- V72: VAL as the first command after reset. -/
theorem test_reset_val : (landed (step (State.reset.withFetchWord 8 0x02))).status = 0x10#8 := by decide
/-- V76: a write of `STATUS` is ignored. -/
theorem test_status_write_ignored :
    (landed (performAccess (.writeRegister 1 0xFF) (landed (exec .val machine)))).status = 0x10#8 := by decide
/-- R73: the accesses of `LDI "01"`. -/
theorem test_ldi_accesses : expand (.ldi (bin 2 0b01)) machine = some [.access (.writeCell .ibuf 0 0x30#8),
    .access (.writeCell .ibuf 1 0x31#8), .access (.writeRegister 2 2)] := by decide
/-- R165 (f), log 7: the least value too wide for each of `CMD`, `STATUS` and, where it is seven bits wide, `OLEN`. -/
theorem test_refusals_narrow : refusal (performAccess (.writeRegister 0 256) machine) = some .valueWiderThanRegister ∧
    refusal (performAccess (.writeRegister 1 256) machine) = some .valueWiderThanRegister ∧
    refusal (performAccess (.writeRegister 4 128) machine) = some .valueWiderThanRegister := by decide
/-- R165 (a), (b), (f): the least refused values where `N_MAX = 64`. -/
theorem test_refusals : refusal (performAccess (.writeRegister 2 65) machine) = some .lengthAboveCapacity ∧
    refusal (performAccess (.writeCell .ibuf 64 0x30#8) machine) = some .noSuchCell ∧
    refusal (performAccess (.writeRegister 5 0x20000) machine) = some .valueWiderThanRegister := by decide

/-! ### Witnesses: the hypotheses of each statement can be met together -/

/-- A cell that reads as a value holds one. -/
theorem holds_of_read {m : Memory} {i : Nat} (h : (Memory.read m i).isSome = true) : holdsValue m i :=
  Option.isSome_iff_exists.mp h

/-- A cell that reads as no value holds none. -/
theorem not_holds_of_read {m : Memory} {i : Nat} (h : Memory.read m i = none) : ¬ holdsValue m i := by
  rintro ⟨v, hv⟩
  simp [h] at hv

/-- A command over a stream that reads, and that is neither a cipher nor ENC, is permitted. -/
theorem permitted_of_stream {i : Instr} {s : State} {bits : List Sym} (hs : inputStream s = some bits)
    (hk : readsKey i = false) (he : i ≠ .enc) : commandPermitted i s :=
  ⟨fun _ => by simpa [holdsValue] using (Memory.readRegion_isSome s.ibuf 0 s.ilen).mp ⟨bits, hs⟩,
    fun h => by simp [hk] at h, fun h => absurd h he⟩

/-- A valid codeword loaded (V10), nothing else. -/
def codewordLoaded : State := loaded (bin 11 0b10100111001) []

/-- The machine of V53: a codeword loaded, rate one half, eleven draws of which the third is below it. -/
def oneFlip : State := simState (bin 11 0b10100111001) 0x08000#17 [0x9000#16, 0x9000#16, 0x1000#16, 0x9000#16, 0xFFFF#16,
  0x8000#16, 0x8001#16, 0xC000#16, 0xA000#16, 0xB000#16, 0xD000#16]

/-- A machine with an output of three symbols and a host about to do `p`. -/
def withOutput (p : Pseudo) : State :=
  { machine with obuf := Memory.ofStream (bin 3 0b101), olen := 3, host := { pending := [.pseudo p], heard := [] } }

theorem witness_DecodeInvertsEncode : Instr.wf (.encrUnreg 2#4) = true ∧ Instr.wf (.illegalSimCid 15#4) = true := by
  decide

/-- The second clause of StepRunsDecodedCommand has no hypothesis. -/
theorem witness_StepRunsDecodedCommand :
    ({ machine with host := { pending := [.access (.writeRegister 0 0x24), .access .reset], heard := [] } } : State).host.pending
      = .access (.writeRegister 0 (0x24#8 : BitVec 8).toNat) :: [.access .reset] ∧ machine.host.pending = [] := by decide

/-- Eight symbols (V6), and 35 symbols, the most whose codewords fit 64 cells. -/
theorem witness_EncEmitsCodewords :
    (inputStream (loaded (bin 8 0b10110011) []) = some (bin 8 0b10110011) ∧ (loaded (bin 8 0b10110011) []).ilen ≠ 0 ∧
      allBits (bin 8 0b10110011) = true ∧ 11 * (((loaded (bin 8 0b10110011) []).ilen + 6) / 7) ≤ machine.params.nMax) ∧
    (inputStream (loaded (bin 35 1) []) = some (bin 35 1) ∧ (loaded (bin 35 1) []).ilen ≠ 0 ∧
      allBits (bin 35 1) = true ∧ 11 * (((loaded (bin 35 1) []).ilen + 6) / 7) ≤ machine.params.nMax) := by decide

/-- A valid codeword, and the empty stream. -/
theorem witness_ValReportsVerdict :
    (inputStream codewordLoaded = some (bin 11 0b10100111001) ∧ codewordLoaded.ilen % 11 = 0 ∧
      allBits (bin 11 0b10100111001) = true) ∧
    (inputStream machine = some [] ∧ machine.ilen % 11 = 0 ∧ allBits [] = true) := by decide

/-- Two blocks, the second invalid (V19). -/
theorem witness_StripExtractsData :
    inputStream (loaded (bin 22 0b1010011100111100000001) []) = some (bin 22 0b1010011100111100000001) ∧
    (loaded (bin 22 0b1010011100111100000001) []).ilen % 11 = 0 ∧ allBits (bin 22 0b1010011100111100000001) = true := by
  decide

/-- Nineteen symbols under two characters (V23): the key is cycled. -/
theorem witness_VigenereXorsKeyBits :
    inputStream (loaded (bin 19 0) [0x41#8, 0x42#8]) = some (bin 19 0) ∧
    inputKey (loaded (bin 19 0) [0x41#8, 0x42#8]) = some [0x41#8, 0x42#8] ∧
    (loaded (bin 19 0) [0x41#8, 0x42#8]).ilen ≠ 0 ∧ (loaded (bin 19 0) [0x41#8, 0x42#8]).klen ≠ 0 ∧
    allBits (bin 19 0) = true := by decide

/-- The keys `"-3"` (V33), `"+7"` (V34) and `"10"` (V31). -/
theorem witness_CaesarShiftsByKeyParity :
    (inputStream (loaded (bin 3 0b101) [0x2D#8, 0x33#8]) = some (bin 3 0b101) ∧
      inputKey (loaded (bin 3 0b101) [0x2D#8, 0x33#8]) = some [0x2D#8, 0x33#8] ∧
      (loaded (bin 3 0b101) [0x2D#8, 0x33#8]).ilen ≠ 0 ∧ allBits (bin 3 0b101) = true) ∧
    IsNumeral [0x2D#8, 0x33#8] [0x2D#8] [0x33#8] ∧ IsNumeral [0x2B#8, 0x37#8] [0x2B#8] [0x37#8] ∧
    IsNumeral [0x31#8, 0x30#8] [] [0x31#8, 0x30#8] := by
  refine ⟨by decide, ?_, ?_, ?_⟩ <;> unfold IsNumeral <;> decide

/-- The numerals' values, by hand: -3, 7 and 10. -/
theorem test_numeralValue : numeralValue [0x2D#8] [0x33#8] = -3 ∧ numeralValue [0x2B#8] [0x37#8] = 7 ∧
    numeralValue [] [0x31#8, 0x30#8] = 10 := by decide

/-- Rate one half (V53), and the greatest rate in range (V59, with a symbol that is no bit). -/
theorem witness_SimFlipsByDraws :
    (inputStream oneFlip = some (bin 11 0b10100111001) ∧ oneFlip.rate.toNat ≤ 65536) ∧
    (inputStream (simState (bin 10 0b1010011100 ++ [0x78#8]) 0x10000#17 []) = some (bin 10 0b1010011100 ++ [0x78#8]) ∧
      (simState (bin 10 0b1010011100 ++ [0x78#8]) 0x10000#17 []).rate.toNat ≤ 65536) := by decide

/-- Bytes 0x24 and 0xF5. -/
theorem witness_UnregisteredCipherFails :
    Instr.decrUnreg 15#4 ∈ [Instr.encrUnreg 15#4, Instr.decrUnreg 15#4] ∧
    ((opField 0x24#8).toNat ∈ [4, 5] ∧ 2 ≤ (cidField 0x24#8).toNat) ∧
    ((opField 0xF5#8).toNat ∈ [4, 5] ∧ 2 ≤ (cidField 0xF5#8).toNat) := by decide

/-- Bytes 0x00, 0xFF, 0x11 and 0xF6. -/
theorem witness_IllegalBytesFail :
    Instr.illegalSimCid 1#4 ∈ [Instr.illegalOp0 1#4, Instr.illegalOp7 1#4, Instr.illegalOp8 1#4 0#3,
      Instr.illegalEncCid 1#4, Instr.illegalValCid 1#4, Instr.illegalStripCid 1#4, Instr.illegalSimCid 1#4] ∧
    (opField 0x00#8).toNat ∈ [0, 7, 8, 9, 10, 11, 12, 13, 14, 15] ∧
    (opField 0xFF#8).toNat ∈ [0, 7, 8, 9, 10, 11, 12, 13, 14, 15] ∧
    ((opField 0x11#8).toNat ∈ [1, 2, 3, 6] ∧ cidField 0x11#8 ≠ 0#4) ∧
    ((opField 0xF6#8).toNat ∈ [1, 2, 3, 6] ∧ cidField 0xF6#8 ≠ 0#4) := by decide

/-- Clauses 1 and 2 of ChecksInOrder: bytes 0xFF and 0x24. -/
theorem witness_ChecksInOrder_bytes :
    (decodeByte 0xFF#8).mnemonic ∈ ["ILLEGAL.OP0", "ILLEGAL.OP7", "ILLEGAL.OP8_15", "ILLEGAL.ENC_CID",
      "ILLEGAL.VAL_CID", "ILLEGAL.STRIP_CID", "ILLEGAL.SIM_CID"] ∧
    (decodeByte 0x24#8).mnemonic ∈ ["ENCR.UNREG", "DECR.UNREG"] := by decide

/-- Clause 3: the empty stream (V0), and one with a symbol that is no bit (V9). -/
theorem witness_ChecksInOrder_enc :
    (inputStream machine = some [] ∧ 11 * ((machine.ilen + 6) / 7) ≤ machine.params.nMax ∧ machine.ilen = 0) ∧
    (inputStream (loaded (dec [0, 1, 2]) []) = some (dec [0, 1, 2]) ∧
      11 * (((loaded (dec [0, 1, 2]) []).ilen + 6) / 7) ≤ machine.params.nMax ∧ (loaded (dec [0, 1, 2]) []).ilen ≠ 0 ∧
      ∃ c, c ∈ dec [0, 1, 2] ∧ c ≠ 0x30#8 ∧ c ≠ 0x31#8) :=
  ⟨by decide, by decide, by decide, by decide, 0x32#8, by decide⟩

/-- Clause 4: ten symbols (V14), and eleven of which one is no bit (V20g). -/
theorem witness_ChecksInOrder_val :
    (inputStream (loaded (bin 10 0b1010011100) []) = some (bin 10 0b1010011100) ∧
      (loaded (bin 10 0b1010011100) []).ilen % 11 ≠ 0) ∧
    (inputStream (loaded (bin 10 0b1010011100 ++ [0x78#8]) []) = some (bin 10 0b1010011100 ++ [0x78#8]) ∧
      (loaded (bin 10 0b1010011100 ++ [0x78#8]) []).ilen % 11 = 0 ∧
      ∃ c, c ∈ bin 10 0b1010011100 ++ [0x78#8] ∧ c ≠ 0x30#8 ∧ c ≠ 0x31#8) :=
  ⟨by decide, by decide, by decide, 0x78#8, by decide⟩

/-- Clause 5, first three cases: both operands empty (V27), an empty key (V29), a symbol that is no bit (V28). -/
theorem witness_ChecksInOrder_cipher :
    (inputStream machine = some [] ∧ inputKey machine = some [] ∧ machine.ilen = 0) ∧
    (inputStream (loaded [0x31#8, 0x78#8, 0x31#8] []) = some [0x31#8, 0x78#8, 0x31#8] ∧
      inputKey (loaded [0x31#8, 0x78#8, 0x31#8] []) = some [] ∧ (loaded [0x31#8, 0x78#8, 0x31#8] []).ilen ≠ 0 ∧
      (loaded [0x31#8, 0x78#8, 0x31#8] []).klen = 0) ∧
    (inputStream (loaded [0x31#8, 0x78#8, 0x31#8] [0x4B#8]) = some [0x31#8, 0x78#8, 0x31#8] ∧
      inputKey (loaded [0x31#8, 0x78#8, 0x31#8] [0x4B#8]) = some [0x4B#8] ∧
      (loaded [0x31#8, 0x78#8, 0x31#8] [0x4B#8]).ilen ≠ 0 ∧ (loaded [0x31#8, 0x78#8, 0x31#8] [0x4B#8]).klen ≠ 0 ∧
      ∃ c, c ∈ [0x31#8, 0x78#8, 0x31#8] ∧ c ≠ 0x30#8 ∧ c ≠ 0x31#8) :=
  ⟨by decide, by decide, by decide, by decide, by decide, by decide, 0x78#8, by decide⟩

/-- Clause 5, last case: the key `"z"` is no numeral. -/
theorem witness_ChecksInOrder_parse :
    Instr.encrCaesar ∈ [Instr.encrCaesar, Instr.decrCaesar] ∧
    inputStream (loaded (bin 3 0b101) [0x7A#8]) = some (bin 3 0b101) ∧
    inputKey (loaded (bin 3 0b101) [0x7A#8]) = some [0x7A#8] ∧ (loaded (bin 3 0b101) [0x7A#8]).ilen ≠ 0 ∧
    (loaded (bin 3 0b101) [0x7A#8]).klen ≠ 0 ∧ (∀ c, c ∈ bin 3 0b101 → c = 0x30#8 ∨ c = 0x31#8) ∧
    ¬ ∃ sign digits, IsNumeral [0x7A#8] sign digits := by
  refine ⟨by decide, by decide, by decide, by decide, by decide, by decide, ?_⟩
  rintro ⟨sign, digits, happ, hsign, hne, hd⟩
  rcases hsign with rfl | rfl | rfl
  · obtain rfl : digits = [0x7A#8] := by simpa using happ.symm
    exact absurd (hd 0x7A#8 (by simp)).2 (by decide)
  · exact absurd (List.cons.inj happ).1 (by decide)
  · exact absurd (List.cons.inj happ).1 (by decide)

/-- Clause 6: the least rate out of range (V52). -/
theorem witness_ChecksInOrder_sim :
    inputStream (simState (bin 3 0b101) 0x10001#17 []) = some (bin 3 0b101) ∧
    65536 < (simState (bin 3 0b101) 0x10001#17 []).rate.toNat := by decide

/-- V9: ENC over a symbol that is no bit reports an error. -/
theorem witness_ErrorCommitIsWholeEffect :
    ∃ t, exec .enc (loaded (dec [0, 1, 2]) []) = .next t ∧ errField t.status ≠ 0#4 :=
  ⟨_, completes_eq (by decide), by decide⟩

/-- `V` is 1 after V10, `DET` after V53, `ERR` not 0 after V9. -/
theorem witness_StatusRewrittenWhole :
    (∃ t, exec .val codewordLoaded = .next t ∧ vFlag t.status = true) ∧
    (∃ t, exec .sim oneFlip = .next t ∧ detFlag t.status = true) ∧
    (∃ t, exec .enc (loaded (dec [0, 1, 2]) []) = .next t ∧ errField t.status ≠ 0#4) :=
  ⟨⟨_, completes_eq (by decide), by decide⟩, ⟨_, completes_eq (by decide), by decide⟩,
    ⟨_, completes_eq (by decide), by decide⟩⟩

/-- STRIP leaves a bit in cell 0 of `OBUF`. -/
theorem witness_OutputRegionIsDefined :
    ∃ t, exec .strip codewordLoaded = .next t ∧ Instr.strip ≠ .sim ∧ Memory.read t.obuf 0 = some 0x31#8 :=
  ⟨_, completes_eq (by decide), by decide, by decide⟩

theorem witness_OperandsNeverModified : ∃ t, exec .sim oneFlip = .next t := ⟨_, completes_eq (by decide)⟩

/-- Two states that differ in the results of earlier commands, in the key and in the cells past the stream. -/
theorem witness_ResultDependsOnlyOnOperands :
    SameInputs .sim oneFlip
      { oneFlip with status := 7#8, olen := 1, obuf := [(0, 0x30#8)], klen := 3, ibuf := oneFlip.ibuf ++ [(20, 0x55#8)] } ∧
    ∃ s', exec .sim oneFlip = .next s' :=
  ⟨⟨rfl, fun _ => ⟨rfl, by decide⟩, fun h => absurd h (by decide), fun _ => ⟨rfl, rfl⟩⟩, _, completes_eq (by decide)⟩

theorem witness_SecondIssueChangesNothing :
    ∃ t, Instr.val ≠ .sim ∧ exec .val codewordLoaded = .next t := ⟨_, by decide, completes_eq (by decide)⟩

/-- A stream whose only cell holds no value, and 36 symbols whose 66 do not fit 64 cells. -/
theorem witness_CommandRefusedOnlyOnViolation :
    ¬ commandPermitted .val { machine with ilen := 1 } ∧ ¬ commandPermitted .enc (loaded (bin 36 1) []) :=
  ⟨fun h => not_holds_of_read rfl (h.1 rfl 0 Nat.one_pos), fun h => absurd (h.2.2 rfl) (by decide)⟩

/-- The host's next access: a register read, one cell too far. -/
theorem witness_StepRefusedOnlyOnViolation :
    nextPermitted { machine with host := { pending := [.access (.readRegister 5)], heard := [] } } ∧
    ¬ nextPermitted { machine with host := { pending := [.access (.writeCell .kbuf 32 0x30#8)], heard := [] } } :=
  ⟨Nat.le_refl 5, Nat.lt_irrefl 32⟩

/-- With `N_MAX = 64` and `K_MAX = 32` the lengths are seven bits wide: a bound of every clause. -/
theorem witness_ViolationsRefusedByName :
    (65 < 2 ^ lenW machine.params ∧ machine.params.nMax < 65) ∧
    (127 < 2 ^ lenW machine.params ∧ machine.params.nMax < 127) ∧
    (33 < 2 ^ lenW machine.params ∧ machine.params.kMax < 33) ∧ 5 < 6 ∧
    (capacity machine.params .ibuf ≤ 64 ∧ capacity machine.params .kbuf ≤ 32 ∧ capacity machine.params .obuf ≤ 64) ∧
    (63 < capacity machine.params .ibuf ∧ ¬ holdsValue (machine.buffer .ibuf) 63) ∧ 2 ^ 17 ≤ 0x20000 ∧
    2 ^ lenW machine.params ≤ 128 ∧ 256 ≤ 0x100 :=
  ⟨by decide, by decide, by decide, by decide, by decide, ⟨by decide, not_holds_of_read rfl⟩, by decide, by decide,
    by decide⟩

/-- The least capacities: the widths 4 and 3. -/
theorem witness_LengthWidthIsSmallest :
    Params.legal { nMax := 11, kMax := 1 } = true ∧ max 11 1 < 2 ^ 4 ∧ lenW { nMax := 11, kMax := 1 } = 4 ∧
    lenW { nMax := 15, kMax := 1 } = 4 ∧ lenW { nMax := 15, kMax := 16 } = 5 := by decide

/-- Each bound of the clauses about writes: the capacities, and the greatest values of each width. -/
theorem witness_RegisterAccesses :
    (5, machine.rate.toNat) ∈ [(0, machine.cmd.toNat), (1, machine.status.toNat), (2, machine.ilen), (3, machine.klen),
      (4, machine.olen), (5, machine.rate.toNat)] ∧
    (64 < 2 ^ lenW machine.params ∧ 64 ≤ machine.params.nMax) ∧
    (32 < 2 ^ lenW machine.params ∧ 32 ≤ machine.params.kMax) ∧ 255 < 256 ∧ 127 < 2 ^ lenW machine.params := by decide

/-- V49h: byte 0x14. -/
theorem witness_CommandReadsBack :
    ∃ t, performAccess (.writeRegister 0 (0x14#8 : BitVec 8).toNat) (loaded (bin 3 0b101) (dec [3])) = .next t :=
  ⟨_, completes_eq (by decide)⟩

/-- The last cell of every buffer, and a cell that holds a value. -/
theorem witness_CellAccesses : 63 < machine.params.nMax ∧ 31 < machine.params.kMax ∧
    10 < capacity codewordLoaded.params .ibuf ∧ Memory.read (codewordLoaded.buffer .ibuf) 10 = some 0x31#8 := by decide

/-- A SIM over eleven symbols, and a byte that names no operation. -/
theorem witness_ResetAbandonsTheCommand :
    commandPermitted (decodeByte 0x06#8) oneFlip ∧ commandPermitted (decodeByte 0x00#8) machine :=
  ⟨permitted_of_stream (bits := bin 11 0b10100111001) (by decide) rfl (by decide),
    permitted_of_stream (bits := []) (by decide) rfl (by decide)⟩

/-- The machine of V53 about to run its SIM. -/
theorem witness_StepKeepsInvariant : StateInv (oneFlip.withFetchWord 8 0x06) ∧
    ∃ t, step (oneFlip.withFetchWord 8 0x06) = .next t := by
  refine ⟨⟨by decide, by decide, by decide, by decide, by decide, fun i => ?_, fun _ i v h => ?_, by decide, by decide,
    by decide, by decide⟩, _, completes_eq (by decide)⟩
  · exact ⟨fun h => absurd h (not_holds_of_read rfl), fun h => absurd h (Nat.not_lt_zero i)⟩
  · exact absurd (show Memory.read [] i = some v from h) (by simp)

/-- A valid word, a single flip at position 11, flips at 1 and 2, and the flip of every position. -/
theorem witness_BlockCodeProperties :
    blockValid (wordOf 0b10011100101) = true ∧ onePositions (wordOf 0b10000000000) = [11] ∧
    weight (wordOf 0b11) = 2 ∧ weight (wordOf 0b11111111111) = 11 := by decide

theorem witness_EncodeValidateStripLaws :
    (bin 8 0b10110011 ≠ [] ∧ allBits (bin 8 0b10110011) = true) ∧
    (bin 11 0b10100111001 ≠ [] ∧ allBits (bin 11 0b10100111001) = true ∧ (bin 11 0b10100111001).length % 11 = 0 ∧
      validateStream (bin 11 0b10100111001) = .ok true) := ⟨by decide, by decide, by decide, by decide, rfl⟩

/-- V5, then VAL and STRIP on its output. -/
theorem witness_ValAcceptsEncOutput :
    ∃ t, inputStream (loaded (bin 7 0b1011001) []) = some (bin 7 0b1011001) ∧
      exec .enc (loaded (bin 7 0b1011001) []) = .next t ∧ errField t.status = 0#4 ∧
      outputStream t = some (bin 11 0b10100111001) ∧ inputStream codewordLoaded = some (bin 11 0b10100111001) :=
  ⟨_, by decide, completes_eq (by decide), by decide, by decide, by decide⟩

/-- Both registered ciphers (V21, V30). -/
theorem witness_RegisteredCiphersInvert :
    (registry 0#4 = some vigenere ∧ vigenere.encrypt (bin 10 0b1010101010) [0x4B#8] = .ok (bin 10 0b1110000111)) ∧
    (registry 1#4 = some caesar ∧ caesar.encrypt (bin 11 0b10100111001) (dec [3]) = .ok (bin 11 0b01011000110)) :=
  ⟨⟨rfl, rfl⟩, rfl, rfl⟩

/-- V30, then V37. -/
theorem witness_DecrUndoesEncr :
    ∃ t, exec .encrCaesar (loaded (bin 11 0b10100111001) (dec [3])) = .next t ∧ errField t.status = 0#4 ∧
      inputStream (loaded (bin 11 0b01011000110) (dec [3])) = outputStream t ∧
      inputKey (loaded (bin 11 0b01011000110) (dec [3])) = inputKey (loaded (bin 11 0b10100111001) (dec [3])) :=
  ⟨_, completes_eq (by decide), by decide, by decide, by decide⟩

theorem witness_ConstantXorKeys : bin 3 0b101 ≠ [] ∧ allBits (bin 3 0b101) = true := by decide

theorem witness_CaesarKeepsVerdict :
    bitShiftEnc (bin 11 0b10100111001) (dec [3]) = .ok (bin 11 0b01011000110) ∧
    bitShiftDec (bin 11 0b01011000110) (dec [3]) = .ok (bin 11 0b10100111001) := ⟨rfl, rfl⟩

/-- Rate 0 over a stream that is not of whole codewords (V57), rate 1 over a codeword (V51). -/
theorem witness_SimAtRateZeroAndOne :
    (inputStream (simState (bin 10 0b1010011100) 0#17 []) = some (bin 10 0b1010011100) ∧
      (simState (bin 10 0b1010011100) 0#17 []).rate = 0#17) ∧
    (inputStream (simState (bin 11 0b10100111001) 0x10000#17 []) = some (bin 11 0b10100111001) ∧
      (simState (bin 11 0b10100111001) 0x10000#17 []).rate = 0x10000#17 ∧ allBits (bin 11 0b10100111001) = true ∧
      (simState (bin 11 0b10100111001) 0x10000#17 []).ilen % 11 = 0) := by decide

/-- V53. -/
theorem witness_SimDetectsBySyndrome :
    ∃ t, inputStream oneFlip = some (bin 11 0b10100111001) ∧ allBits (bin 11 0b10100111001) = true ∧
      oneFlip.ilen % 11 = 0 ∧ oneFlip.rate.toNat ≤ 65536 ∧ exec .sim oneFlip = .next t ∧ detFlag t.status = true :=
  ⟨_, by decide, by decide, by decide, by decide, completes_eq (by decide), by decide⟩

/-- A SIM in range, one out of range, and another command. -/
theorem witness_DrawsPerCommand :
    (∃ t, exec .sim oneFlip = .next t) ∧ (∃ t, exec .sim (simState (bin 3 0b101) 0x10001#17 []) = .next t) ∧
    (∃ t, exec .val oneFlip = .next t) :=
  ⟨⟨_, completes_eq (by decide)⟩, ⟨_, completes_eq (by decide)⟩, ⟨_, completes_eq (by decide)⟩⟩

/-- A codeword, ten symbols, and eleven of which one is no bit, all at rate 0. -/
theorem witness_ValAfterSim :
    ∀ out, out ∈ [bin 11 0b00100111001, bin 10 0b1010011100, bin 10 0b1010011100 ++ [0x78#8]] →
      ∃ t, exec .sim (simState out 0#17 (List.replicate 11 7#16)) = .next t ∧ errField t.status = 0#4 ∧
        outputStream t = some out ∧ inputStream (loaded out []) = some out := by
  intro out h
  fin_cases h <;> exact ⟨_, completes_eq (by decide), by decide, by decide, by decide⟩

/-- A stream of the capacity, and a key of the capacity. -/
theorem witness_LoadsFillTheOperands :
    ({ machine with host := { pending := [.pseudo (.ldi (bin 64 1))], heard := [] } } : State).host.pending =
      .pseudo (.ldi (bin 64 1)) :: [] ∧ (bin 64 1).length ≤ machine.params.nMax ∧
    ({ machine with host := { pending := [.pseudo (.ldk (dec [4, 2]))], heard := [] } } : State).host.pending =
      .pseudo (.ldk (dec [4, 2])) :: [] ∧ (dec [4, 2]).length ≤ machine.params.kMax := by decide

/-- An output of three symbols, and the host about to move it. -/
theorem witness_MoveOutputToInput :
    let s := withOutput .mvo
    s.host.pending = .pseudo .mvo :: [] ∧ outputStream s = some (bin 3 0b101) ∧ s.olen ≤ s.params.nMax := by decide

/-- An output of three symbols, and each pseudo-operation in turn. -/
theorem witness_ReadsAndRate :
    let s := withOutput
    ((s .rdo).host.pending = .pseudo .rdo :: [] ∧ outputStream (s .rdo) = some (bin 3 0b101) ∧
      (s .rdo).olen ≤ machine.params.nMax) ∧
    (s .rds).host.pending = .pseudo .rds :: [] ∧
    (s (.ldr 0x10000)).host.pending = .pseudo (.ldr (0x10000#17 : Rate).toNat) :: [] := by decide

/-- A mnemonic alone, the first and the last `n` of `ENCR.n` and `DECR.n`, and a raw byte. -/
theorem witness_MnemonicsRunTheirCommands :
    (withOutput (.issue .decrCaesar)).host.pending = .pseudo (.issue .decrCaesar) :: [] ∧
    (0x24#8 : BitVec 8).toNat = 16 * ((0 : Fin 14).val + 2) + 4 ∧
    (0xF5#8 : BitVec 8).toNat = 16 * ((13 : Fin 14).val + 2) + 5 ∧
    (withOutput (.issue (.encrN 0))).host.pending = .pseudo (.issue (.encrN 0)) :: [] ∧
    (withOutput (.issue (.decrN 13))).host.pending = .pseudo (.issue (.decrN 13)) :: [] ∧
    (withOutput (.issue (.raw 0xFF#8))).host.pending = .pseudo (.issue (.raw 0xFF#8)) :: [] := by decide

/-- As many answers as there are symbols, at rate one half. -/
theorem witness_ConnectedSourceAnswers :
    inputStream (simState (bin 3 0b101) 0x08000#17 []) = some (bin 3 0b101) ∧
    (simState (bin 3 0b101) 0x08000#17 []).rate.toNat ≤ 65536 ∧
    (simState (bin 3 0b101) 0x08000#17 []).ilen ≤ [0x7FFF#16, 0x8000#16, 0#16].length ∧
    (bin 3 0b101)[2]? = some 0x31#8 ∧ ([0x7FFF#16, 0x8000#16, 0#16] : List DrawValue)[2]? = some 0#16 := by decide

end Sys2Proof.Tests
end

section
/-! Proofs of the statements about CORE's state: what reset leaves, the operands no command writes, and `STATUS`. -/

namespace Sys2Proof.Machine

/-! ### Reset -/

/-- Settles O27: each register holds its reset value, and a buffer that lists no cell reads as no value everywhere. -/
theorem resetLeavesTheseValues : Obligations.ResetLeavesTheseValues := by
  have hbuffers : ∀ i, Memory.read State.reset.ibuf i = none ∧ Memory.read State.reset.kbuf i = none ∧
      Memory.read State.reset.obuf i = none :=
    fun i => ⟨Memory.read_empty i, Memory.read_empty i, Memory.read_empty i⟩
  exact ⟨rfl, rfl, rfl, rfl, rfl, rfl, rfl, rfl, rfl, hbuffers⟩

/-! ### Operands -/

/-- A region reads the same in two buffers that agree cell by cell. -/
theorem Memory.readRegion_congr {m m' : Memory} (h : ∀ i, Memory.read m i = Memory.read m' i) (i n : Nat) :
    Memory.readRegion m i n = Memory.readRegion m' i n := by
  induction n generalizing i with
  | zero => rfl
  | succ n ih => simp only [Memory.readRegion, h, ih]

/-- States with the same operands have the same input stream. -/
theorem SameOperands.inputStream_eq {s t : State} (h : SameOperands s t) : inputStream t = inputStream s := by
  rw [inputStream, inputStream, h.ilen, Memory.readRegion_congr h.ibuf]

/-- States with the same operands have the same key. -/
theorem SameOperands.inputKey_eq {s t : State} (h : SameOperands s t) : inputKey t = inputKey s := by
  rw [inputKey, inputKey, h.klen, Memory.readRegion_congr h.kbuf]

/-- The error commit leaves the operands alone (R147). -/
theorem sameOperands_errorCommit (e : ErrorName) (s : State) : SameOperands s (errorCommit e s) :=
  ⟨rfl, rfl, rfl, rfl, rfl, fun _ => rfl, fun _ => rfl, rfl⟩

/-- The success commit leaves the operands alone, wherever the draws left the source (R148). -/
theorem sameOperands_successCommit (out : List Sym) (v det : Bool) (r : RandomSource) (s : State) :
    SameOperands s ((successCommit out v det s).setSource r) :=
  ⟨rfl, rfl, rfl, rfl, rfl, fun _ => rfl, fun _ => rfl, rfl⟩

/-- A command that completes leaves the operands alone (R32). -/
theorem exec_sameOperands {i : Instr} {s t : State} (h : exec i s = .next t) : SameOperands s t := by
  rcases exec_next h with ⟨e, rfl⟩ | ⟨out, v, det, n, rfl⟩
  · exact sameOperands_errorCommit e s
  · exact sameOperands_successCommit out v det _ s

/-- Settles O17: neither commit writes an operand, and the operands fix the stream and the key. -/
theorem operandsNeverModified : Obligations.OperandsNeverModified := by
  intro i s t h
  have hsame := exec_sameOperands h
  exact ⟨hsame, hsame.inputStream_eq, hsame.inputKey_eq⟩

/-! ### STATUS -/

/-- `detected` is 1 exactly when the stream does not validate (R126). -/
theorem detected_eq_true_iff (out : List Sym) : detected out = true ↔ validateStream out ≠ .ok true := by
  unfold detected
  cases validateStream out <;> simp

/-- A result made of an output alone raises no flag. -/
theorem flags_of_streamResult {r : Except ErrorName (List Sym)} {out : List Sym} {v det : Bool} {n : Nat}
    (h : (r.map fun out => (out, false, false, 0)) = .ok (out, v, det, n)) : v = false ∧ det = false := by
  cases r with
  | error e => simp [Except.map] at h
  | ok out' =>
    simp only [Except.map, Except.ok.injEq, Prod.mk.injEq] at h
    obtain ⟨-, rfl, rfl, -⟩ := h
    exact ⟨rfl, rfl⟩

/-- Where the flags of a result come from: none is raised, or `V` is the verdict of VAL, or `DET` is what SIM detected
(R16). -/
theorem commandResult_flags {i : Instr} {bits key out : List Sym} {rate : Rate} {draws : List DrawValue} {v det : Bool}
    {n : Nat} (h : commandResult i bits key rate draws = .ok (out, v, det, n)) :
    (v = false ∧ det = false) ∨ (i = .val ∧ validateStream bits = .ok v ∧ det = false) ∨
    (i = .sim ∧ v = false ∧ det = detected out) := by
  cases i with
  | enc | strip | encrVigenere | encrCaesar | decrVigenere | decrCaesar => exact .inl (flags_of_streamResult h)
  | val =>
    cases hv : validateStream bits with
    | error e => simp [commandResult, hv, Except.map] at h
    | ok verdict =>
      simp only [commandResult, hv, Except.map, Except.ok.injEq, Prod.mk.injEq] at h
      obtain ⟨-, rfl, rfl, -⟩ := h
      exact .inr (.inl ⟨rfl, rfl, rfl⟩)
  | sim =>
    simp only [commandResult] at h
    split at h
    · cases h
    · simp only [Except.ok.injEq, Prod.mk.injEq] at h
      obtain ⟨rfl, rfl, rfl, -⟩ := h
      exact .inr (.inr ⟨rfl, rfl, rfl⟩)
  | encrUnreg | decrUnreg | illegalOp0 | illegalOp7 | illegalOp8 | illegalEncCid | illegalValCid | illegalStripCid
  | illegalSimCid => cases h

/-- The `STATUS` a command that completes leaves: an error's, a success without a flag, VAL's verdict on its stream, or
what SIM detects in its output (R16). -/
theorem exec_status_cases {i : Instr} {s t : State} (h : exec i s = .next t) :
    (∃ e, t.status = errorStatus e) ∨ t.status = okStatus false false ∨
    (i = .val ∧ ∃ prot v, inputStream s = some prot ∧ validateStream prot = .ok v ∧ t.status = okStatus v false) ∨
    (i = .sim ∧ ∃ out, outputStream t = some out ∧ t.status = okStatus false (detected out)) := by
  obtain ⟨bits, key, hbits, -, -, rfl⟩ := exec_next_result h
  cases hr : commandResult i bits key s.rate (nextDraws bits.length s.rng) with
  | error e => exact .inl ⟨e, rfl⟩
  | ok result =>
    obtain ⟨out, v, det, n⟩ := result
    rcases commandResult_flags hr with ⟨rfl, rfl⟩ | ⟨rfl, hv, rfl⟩ | ⟨rfl, rfl, rfl⟩
    · exact .inr (.inl rfl)
    · exact .inr (.inr (.inl ⟨rfl, bits, v, hbits rfl, hv, rfl⟩))
    · exact .inr (.inr (.inr ⟨rfl, out, outputStream_successCommit out false (detected out) s, rfl⟩))

/-- A commit overwrites `STATUS`, whatever it was (R16). -/
theorem commitResult_status_irrelevant (r : Except ErrorName (List Sym × Bool × Bool × Nat)) (s : State)
    (old : BitVec 8) : commitResult r { s with status := old } = commitResult r s := by
  cases r <;> rfl

/-- No earlier `STATUS` shows through a command that completes (R16). -/
theorem exec_status_irrelevant {i : Instr} {s t : State} (h : exec i s = .next t) (old : BitVec 8) :
    exec i { s with status := old } = .next t := by
  obtain ⟨bits, key, hbits, hkey, hfit, rfl⟩ := exec_next_result h
  have hold := exec_eq (s := { s with status := old }) hbits hkey hfit
  rwa [commitResult_status_irrelevant] at hold

/-- Settles O15: the four forms of `STATUS` after a command, each read off field by field. -/
theorem statusRewrittenWhole : Obligations.StatusRewrittenWhole := by
  intro i s t h
  have hold := exec_status_irrelevant h
  rcases exec_status_cases h with ⟨e, hst⟩ | hst | ⟨rfl, prot, v, hprot, hv, hst⟩ | ⟨rfl, out, hout, hst⟩
  case inl => simpa [hst] using hold
  case inr.inl => simpa [hst] using hold
  case inr.inr.inl =>
    have hvalid : v = true → ∃ prot, inputStream s = some prot ∧ validateStream prot = .ok true := by
      rintro rfl
      exact ⟨prot, hprot, hv⟩
    simpa [hst] using ⟨hvalid, hold⟩
  case inr.inr.inr =>
    have hdetected : detected out = true → ∃ out, outputStream t = some out ∧ validateStream out ≠ .ok true :=
      fun hd => ⟨out, hout, (detected_eq_true_iff out).mp hd⟩
    simpa [hst] using ⟨hdetected, hold⟩

end Sys2Proof.Machine
end

section
/-! Proofs of the statements about the command byte and its operands: the illegal rows, and the key read as bits. -/

namespace Sys2Proof.Machine

/-! ### The two commits, seen from outside -/

/-- All an error commit does (R147). -/
theorem errorCommit_effect (e : ErrorName) (s : State) :
    (errorCommit e s).status = errorStatus e ∧ (errorCommit e s).olen = 0 ∧
      (∀ j, Memory.read (errorCommit e s).obuf j = none) ∧ SameOperands s (errorCommit e s) ∧
      (errorCommit e s).rng = s.rng :=
  ⟨rfl, rfl, fun _ => rfl, sameOperands_errorCommit e s, rfl⟩

/-- A success commit leaves no value at or above the new `OLEN` (R28, R148). -/
theorem read_successCommit_past_olen (out : List Sym) (v det : Bool) (s : State) {j : Nat}
    (h : (successCommit out v det s).olen ≤ j) : Memory.read (successCommit out v det s).obuf j = none := by
  rw [successCommit_obuf, Memory.read_ofStream]
  exact List.getElem?_eq_none h

/-! ### The illegal rows (R64) -/

/-- The seven illegal rows of the command map, by the bits their bytes leave open (R63). -/
def illegalRows (cid : BitVec 4) (low : BitVec 3) : List Instr :=
  [.illegalOp0 cid, .illegalOp7 cid, .illegalOp8 cid low, .illegalEncCid cid, .illegalValCid cid, .illegalStripCid cid,
    .illegalSimCid cid]

/-- An illegal row commits `IllegalCommand` on every state, whatever its operand regions hold (R64). -/
theorem exec_of_mem_illegalRows {cid : BitVec 4} {low : BitVec 3} {i : Instr} (h : i ∈ illegalRows cid low)
    (s : State) : exec i s = .next (errorCommit .illegalCommand s) := by
  simp only [illegalRows, List.mem_cons, List.not_mem_nil, or_false] at h
  rcases h with rfl | rfl | rfl | rfl | rfl | rfl | rfl <;> rfl

/-- The bytes R64 lists decode to illegal rows: those whose `OP` names no operation, and those of an operation without
cipher whose `CID` is not 0. -/
theorem decodeByte_mem_illegalRows {b : BitVec 8}
    (h : (opField b).toNat ∈ [0, 7, 8, 9, 10, 11, 12, 13, 14, 15] ∨
      ((opField b).toNat ∈ [1, 2, 3, 6] ∧ cidField b ≠ 0#4)) :
    decodeByte b ∈ illegalRows (cidField b) (b.extractLsb' 0 3) := by
  simp only [List.mem_cons, List.not_mem_nil, or_false] at h
  rcases h with hop | ⟨hop, hcid⟩
  · rcases hop with hop | hop | hop | hop | hop | hop | hop | hop | hop | hop <;>
      simp [decodeByte, illegalRows, hop]
  · rcases hop with hop | hop | hop | hop <;> simp [decodeByte, illegalRows, hop, hcid]

/-- Settles O12: every listed byte decodes to an illegal row, and every illegal row is one error commit. -/
theorem illegalBytesFail : Obligations.IllegalBytesFail := by
  have hrows : ∀ (cid : BitVec 4) (low : BitVec 3) (i : Instr), i ∈ illegalRows cid low → ∀ s : State,
      ∃ t, exec i s = .next t ∧ t.status = 0x07#8 ∧ t.olen = 0 ∧ (∀ j, Memory.read t.obuf j = none) ∧
        SameOperands s t ∧ t.rng = s.rng :=
    fun _ _ _ h s => ⟨_, exec_of_mem_illegalRows h s, errorCommit_effect .illegalCommand s⟩
  exact ⟨hrows, fun b h => hrows _ _ _ (decodeByte_mem_illegalRows h)⟩

/-! ### The key as bits (R67) -/

@[simp] theorem charBits_length (c : Sym) : (charBits c).length = 8 := by simp [charBits]

/-- Bit `j` of a character counts from its most significant bit (R45, R67). -/
theorem charBits_getD (c : Sym) {j : Nat} (h : j < 8) : (charBits c).getD j false = c.getLsbD (7 - j) := by
  simp [charBits, h]

@[simp] theorem keyBits_length (key : List Sym) : (keyBits key).length = 8 * key.length := by
  simp [keyBits, List.length_flatMap, Nat.mul_comm]

/-- Key bit `q` is in character `q / 8`, at place `q % 8` from its most significant bit (R67). -/
theorem keyBits_getD (key : List Sym) (q : Nat) :
    (keyBits key).getD q false = (key.getD (q / 8) 0#8).getLsbD (7 - q % 8) := by
  induction key generalizing q with
  | nil => simp [keyBits]
  | cons c cs ih =>
    rw [show keyBits (c :: cs) = charBits c ++ keyBits cs from rfl]
    rcases Nat.lt_or_ge q 8 with hq | hq
    · rw [List.getD_append _ _ _ _ (by simpa using hq), charBits_getD c hq, Nat.div_eq_of_lt hq, Nat.mod_eq_of_lt hq,
        List.getD_cons_zero]
    · obtain ⟨q, rfl⟩ := Nat.exists_eq_add_of_le' hq
      rw [List.getD_append_right _ _ _ _ (by simp), charBits_length, Nat.add_sub_cancel, ih,
        Nat.add_div_right q (by decide), Nat.add_mod_right, List.getD_cons_succ]

/-! ### The xor-stream cipher on streams of bits (R103) -/

/-- The value of a symbol that is a bit (R6). -/
theorem bitVal_eq_beq {c : Sym} (h : isBit c = true) : bitVal c = (c == 0x31#8) := by
  simp only [isBit, Bool.or_eq_true, beq_iff_eq] at h
  rcases h with rfl | rfl <;> decide

theorem symOf_eq_ite (b : Bool) : symOf b = if b then 0x31#8 else 0x30#8 := by cases b <;> decide

/-- Position `p` of the xor-stream is the stream's bit there, complemented where key bit `p mod (8 * KLEN)` is 1 (R67,
R103). -/
theorem xorFrom_keyBits_getElem? {bits : List Sym} (key : List Sym) (hbits : allBits bits = true) {p : Nat}
    (hp : p < bits.length) :
    (xorFrom (keyBits key) 0 bits)[p]? =
      some (if (bits[p]? == some 0x31#8) ^^ (keyBits key).getD (p % (8 * key.length)) false then 0x31#8
        else 0x30#8) := by
  have hbit : isBit bits[p] = true := List.all_eq_true.mp hbits _ (List.getElem_mem hp)
  rw [xorFrom_getElem?, List.getElem?_eq_getElem hp, Option.map_some, Nat.zero_add, keyBits_length, bitVal_eq_beq hbit,
    symOf_eq_ite, Option.some_beq_some]

/-- Both VIGENERE commands commit the xor-stream where the checks of R101 pass (R105, R106). -/
theorem exec_vigenere {i : Instr} (hi : i ∈ [Instr.encrVigenere, Instr.decrVigenere]) {s : State} {bits key : List Sym}
    (hstream : inputStream s = some bits) (hkey : inputKey s = some key)
    (hchecks : cipherChecks bits key = .ok ()) :
    exec i s = .next (successCommit (xorFrom (keyBits key) 0 bits) false false s) := by
  have hxor : xorStream bits key = .ok (xorFrom (keyBits key) 0 bits) := by simp [xorStream, hchecks]
  simp only [List.mem_cons, List.not_mem_nil, or_false] at hi
  rcases hi with rfl | rfl <;>
    rw [exec_eq (fun _ => hstream) (fun _ => hkey) (by simp)] <;>
    simp [commandResult, commitResult, hxor, Except.map]

/-- Settles O8: both commands commit the xor-stream, whose key bits are counted out character by character. -/
theorem vigenereXorsKeyBits : Obligations.VigenereXorsKeyBits := by
  intro i hi s bits key hstream hkey hilen hklen hbits
  have hlen : bits.length = s.ilen := ((inputStream_eq_some s bits).mp hstream).1
  have hkeyLen : key.length = s.klen := ((inputKey_eq_some s key).mp hkey).1
  have hchecks : cipherChecks bits key = .ok () :=
    (cipherChecks_ok bits key).mpr ⟨hlen ▸ hilen, hkeyLen ▸ hklen, hbits⟩
  refine ⟨_, exec_vigenere hi hstream hkey hchecks, by simp [hlen], rfl, fun p hp => ?_,
    fun j hj => read_successCommit_past_olen _ _ _ s hj, sameOperands_successCommit _ _ _ s.rng s, rfl⟩
  rw [successCommit_obuf, Memory.read_ofStream, xorFrom_keyBits_getElem? key hbits (hlen ▸ hp), keyBits_getD, hkeyLen]

end Sys2Proof.Machine
end

section
/-! Proof of the statement about ENC (40_parity_codec.md R80, R81, R84, R85): the codewords of the blocks, symbol by
symbol. -/

namespace Sys2Proof.Machine

/-! ### Streams made of blocks of one size (20_memory.md R43) -/

/-- Element `j` of block `g` of a stream made of `n` blocks of `k` elements stands at `k * g + j`. -/
theorem flatMap_range_getElem? {α : Type} (f : Nat → List α) {k n g j : Nat} (h : ∀ g, (f g).length = k) (hg : g < n)
    (hj : j < k) : ((List.range n).flatMap f)[k * g + j]? = (f g)[j]? := by
  induction n with
  | zero => omega
  | succ n ih =>
    have hlen : ((List.range n).flatMap f).length = k * n := flatMap_range_length f k n h
    rw [List.range_succ, List.flatMap_append, List.flatMap_singleton]
    rcases Nat.lt_succ_iff_lt_or_eq.mp hg with hlt | rfl
    · have hin : k * g + j < k * n :=
        calc k * g + j < k * (g + 1) := Nat.add_lt_add_left hj (k * g)
          _ ≤ k * n := Nat.mul_le_mul_left k hlt
      rw [List.getElem?_append_left (hlen ▸ hin), ih hlt]
    · rw [List.getElem?_append_right (hlen ▸ Nat.le_add_right _ j), hlen, Nat.add_sub_cancel_left]

/-! ### The block code (R80, R81) -/

/-- Which bit of a codeword stands at which position, counted from 1 (R80). -/
theorem codewordBits_getElem? (c : Codeword) {k : Nat} {b : Bool}
    (h : (k, b) ∈ [(1, c.p1), (2, c.p2), (3, c.d0), (4, c.p4), (5, c.d1), (6, c.d2), (7, c.d3), (8, c.p8), (9, c.d4),
      (10, c.d5), (11, c.d6)]) :
    1 ≤ k ∧ (codewordBits c)[k - 1]? = some b := by
  simp only [List.mem_cons, List.not_mem_nil, or_false, Prod.mk.injEq] at h
  rcases h with h | h | h | h | h | h | h | h | h | h | h <;> obtain ⟨rfl, rfl⟩ := h <;>
    exact ⟨by decide, rfl⟩

/-- Data bit `j` of block `g` of an all-bit stream: 1 exactly where the stream has a `SYM1` there (R43, R84). -/
theorem dataBit_eq_beq {bits : List Sym} (hbits : allBits bits = true) (g j : Nat) :
    dataBit bits g j = (bits[7 * g + j]? == some 0x31#8) := by
  unfold dataBit
  cases hc : bits[7 * g + j]? with
  | none => rfl
  | some c =>
    have hbit : isBit c = true := List.all_eq_true.mp hbits c (List.mem_of_getElem? hc)
    rw [Option.some_beq_some]
    exact bitVal_eq_beq hbit

/-! ### ENC (R84, R85) -/

/-- The symbols of the codewords of a stream's blocks, in order (R84). -/
def encodedSymbols (bits : List Sym) : List Sym :=
  (List.range (dataBlocks bits.length)).flatMap fun g => (codewordBits (encodedBlock bits g)).map symOf

@[simp] theorem encodedSymbols_length (bits : List Sym) :
    (encodedSymbols bits).length = encodedLength bits.length :=
  flatMap_range_length _ 11 _ fun _ => rfl

/-- `Encode` succeeds on a non-empty all-bit stream (R84). -/
theorem encodeStream_eq_ok {bits : List Sym} (hne : bits.length ≠ 0) (hbits : allBits bits = true) :
    encodeStream bits = .ok (encodedSymbols bits) := by
  simp [encodeStream, encodedSymbols, hne, hbits]

/-- The symbol at position `k` of codeword `g` of the output of `Encode` (R80, R84). -/
theorem encodedSymbols_getElem? {bits : List Sym} {g k : Nat} {b : Bool} (hg : g < dataBlocks bits.length)
    (hk : 1 ≤ k) (hb : (codewordBits (encodedBlock bits g))[k - 1]? = some b) :
    (encodedSymbols bits)[11 * g + k - 1]? = some (if b then 0x31#8 else 0x30#8) := by
  have hlt : k - 1 < 11 := (List.getElem?_eq_some_iff.mp hb).1
  rw [encodedSymbols, Nat.add_sub_assoc hk, flatMap_range_getElem? (k := 11) _ (fun _ => rfl) hg hlt, List.getElem?_map,
    hb, Option.map_some, symOf_eq_ite]

/-- ENC commits the codewords where its checks pass and its output fits (R85). -/
theorem exec_enc {s : State} {bits : List Sym} (hstream : inputStream s = some bits) (hne : bits.length ≠ 0)
    (hbits : allBits bits = true) (hfit : encodedLength s.ilen ≤ s.params.nMax) :
    exec .enc s = .next (successCommit (encodedSymbols bits) false false s) := by
  rw [exec_eq (key := []) (fun _ => hstream) (by simp [readsKey]) (fun _ => hfit)]
  simp [commandResult, commitResult, encodeStream_eq_ok hne hbits, Except.map]

/-- Settles O5: ENC commits the codewords of the stream's blocks, and each position of a codeword holds the bit that R80
and R81 give it. -/
theorem encEmitsCodewords : Obligations.EncEmitsCodewords := by
  intro s bits hstream hilen hbits hfit
  have hlen : bits.length = s.ilen := ((inputStream_eq_some s bits).mp hstream).1
  have holen : (encodedSymbols bits).length = encodedLength s.ilen := hlen ▸ encodedSymbols_length bits
  refine ⟨_, exec_enc hstream (hlen ▸ hilen) hbits hfit, holen, rfl, ?_,
    fun i hi => read_successCommit_past_olen _ _ _ s hi, sameOperands_successCommit _ _ _ s.rng s, rfl⟩
  intro g hg d k b hmem
  have hd : d = dataBit bits g := funext fun j => (dataBit_eq_beq hbits g j).symm
  rw [hd] at hmem
  obtain ⟨hk, hb⟩ := codewordBits_getElem? (encodedBlock bits g) hmem
  rw [successCommit_obuf, Memory.read_ofStream, encodedSymbols_getElem? (hlen ▸ hg) hk hb]

end Sys2Proof.Machine
end

section
/-! Proofs of the statements about StreamCipher (41_stream_cipher.md): the unregistered rows, and the two registered
ciphers, each of which exclusive-ors the stream with bits that only the key fixes. -/

namespace Sys2Proof.Machine

/-! ### The unregistered rows (R111) -/

/-- The two rows of an unregistered cipher identifier (R63). -/
def unregisteredRows (cid : BitVec 4) : List Instr := [.encrUnreg cid, .decrUnreg cid]

/-- An unregistered row commits `UnknownCipherError` on every state, whatever its operand regions hold (R111). -/
theorem exec_of_mem_unregisteredRows {cid : BitVec 4} {i : Instr} (h : i ∈ unregisteredRows cid) (s : State) :
    exec i s = .next (errorCommit .unknownCipherError s) := by
  simp only [unregisteredRows, List.mem_cons, List.not_mem_nil, or_false] at h
  rcases h with rfl | rfl <;> rfl

/-- The bytes R111 lists decode to the unregistered rows: identifiers 0 and 1, the registered ones, are shut out. -/
theorem decodeByte_mem_unregisteredRows {b : BitVec 8} (hop : (opField b).toNat ∈ [4, 5])
    (hcid : 2 ≤ (cidField b).toNat) : decodeByte b ∈ unregisteredRows (cidField b) := by
  have h0 : cidField b ≠ 0#4 := fun h => absurd (h ▸ hcid) (by decide)
  have h1 : cidField b ≠ 1#4 := fun h => absurd (h ▸ hcid) (by decide)
  simp only [List.mem_cons, List.not_mem_nil, or_false] at hop
  rcases hop with hop | hop <;> simp [decodeByte, unregisteredRows, hop, h0, h1]

/-- Settles O11: every listed byte decodes to an unregistered row, and either row is one error commit. -/
theorem unregisteredCipherFails : Obligations.UnregisteredCipherFails := by
  have hrows : ∀ (cid : BitVec 4) (i : Instr), i ∈ unregisteredRows cid → ∀ s : State,
      ∃ t, exec i s = .next t ∧ t.status = 0x05#8 ∧ t.olen = 0 ∧ (∀ j, Memory.read t.obuf j = none) ∧
        SameOperands s t ∧ t.rng = s.rng :=
    fun _ _ h s => ⟨_, exec_of_mem_unregisteredRows h s, errorCommit_effect .unknownCipherError s⟩
  exact ⟨hrows, fun _ hop hcid => hrows _ _ (decodeByte_mem_unregisteredRows hop hcid)⟩

/-! ### The registry (R100) -/

/-- What the registry holds, slot by slot (R100). -/
theorem registry_eq_some (cid : BitVec 4) (c : CipherPair) :
    registry cid = some c ↔ (cid = 0#4 ∧ c = vigenere) ∨ (cid = 1#4 ∧ c = caesar) := by
  unfold registry
  split
  case isTrue h => simp [h, eq_comm]
  case isFalse h =>
    split
    case isTrue h' => simp [h', eq_comm]
    case isFalse h' => simp [h, h']

/-- Slots 0 and 1 are full, the others empty (R100). -/
theorem registry_isSome (cid : BitVec 4) : (registry cid).isSome = true ↔ cid.toNat < 2 := by
  revert cid
  decide

/-! ### Exclusive-or with a cycled list of bits -/

theorem allBits_cons (c : Sym) (cs : List Sym) : allBits (c :: cs) = (isBit c && allBits cs) := rfl

/-- The output is made of bits, whatever the input. -/
theorem allBits_xorFrom (kb : List Bool) (p : Nat) (bits : List Sym) : allBits (xorFrom kb p bits) = true := by
  induction bits generalizing p with
  | nil => rfl
  | cons c cs ih => simp [xorFrom, allBits_cons, ih]

/-- Exclusive-or with the same bits twice gives an all-bit stream back. -/
theorem xorFrom_xorFrom (kb : List Bool) (p : Nat) {bits : List Sym} (h : allBits bits = true) :
    xorFrom kb p (xorFrom kb p bits) = bits := by
  induction bits generalizing p with
  | nil => rfl
  | cons c cs ih =>
    rw [allBits_cons, Bool.and_eq_true] at h
    obtain ⟨hc, hcs⟩ := h
    simp [xorFrom, symOf_bitVal hc, ih (p + 1) hcs]

/-- The output of an exclusive-or passes the checks that its input passed (R101). -/
theorem cipherChecks_xorFrom {bits key : List Sym} (h : cipherChecks bits key = .ok ()) (kb : List Bool) :
    cipherChecks (xorFrom kb 0 bits) key = .ok () := by
  obtain ⟨hne, hkey, -⟩ := (cipherChecks_ok bits key).mp h
  exact (cipherChecks_ok _ key).mpr ⟨by rwa [xorFrom_length], hkey, allBits_xorFrom kb 0 bits⟩

/-! ### The two ciphers as exclusive-ors (R103, R108) -/

/-- When the xor-stream cipher succeeds, and with what (R103). -/
theorem xorStream_eq_ok (bits key e : List Sym) :
    xorStream bits key = .ok e ↔ cipherChecks bits key = .ok () ∧ e = xorFrom (keyBits key) 0 bits := by
  unfold xorStream
  cases cipherChecks bits key <;> simp [eq_comm]

/-- Modulo 2, a sum of two bits is their exclusive-or. -/
theorem symOfMod2_add (a b : Bool) : symOfMod2 (a.toNat + b.toNat) = symOf (a ^^ b) := by
  cases a <;> cases b <;> rfl

/-- Modulo 2, a difference of two bits is their exclusive-or, `0 - 1` included (R6). -/
theorem symOfMod2_sub (a b : Bool) : symOfMod2 (a.toNat - b.toNat) = symOf (a ^^ b) := by
  cases a <;> cases b <;> rfl

/-- Exclusive-or with one bit, cycled, is the same bit at every position. -/
theorem xorFrom_singleton (shift : Bool) (p : Nat) (bits : List Sym) :
    xorFrom [shift] p bits = bits.map fun c => symOf (bitVal c ^^ shift) := by
  induction bits generalizing p with
  | nil => rfl
  | cons c cs ih => simp [xorFrom, ih, Nat.mod_one]

/-- When the bit-shift cipher's encrypt succeeds, and with what: the stream exclusive-ored with the shift (R108). -/
theorem bitShiftEnc_eq_ok (bits key e : List Sym) :
    bitShiftEnc bits key = .ok e ↔
      cipherChecks bits key = .ok () ∧ ∃ shift, parseShift key = .ok shift ∧ e = xorFrom [shift] 0 bits := by
  unfold bitShiftEnc
  cases cipherChecks bits key <;> cases parseShift key <;> simp [symOfMod2_add, xorFrom_singleton, eq_comm]

/-- Modulo 2, taking the shift away is adding it: the two functions of the bit-shift cipher agree (R108). -/
theorem bitShiftDec_eq_bitShiftEnc (bits key : List Sym) : bitShiftDec bits key = bitShiftEnc bits key := by
  simp only [bitShiftDec, bitShiftEnc, symOfMod2_sub, symOfMod2_add]

/-! ### Decrypt undoes encrypt (R112) -/

/-- The xor-stream cipher is its own inverse on what it accepts (R103, R112). -/
theorem vigenere_decrypt_of_encrypt {b k e : List Sym} (h : vigenere.encrypt b k = .ok e) :
    vigenere.decrypt e k = .ok b := by
  obtain ⟨hchecks, rfl⟩ := (xorStream_eq_ok b k e).mp h
  obtain ⟨-, -, hbits⟩ := (cipherChecks_ok b k).mp hchecks
  exact (xorStream_eq_ok _ k b).mpr ⟨cipherChecks_xorFrom hchecks _, (xorFrom_xorFrom _ 0 hbits).symm⟩

/-- The bit-shift cipher reads the same shift from the key both times, so decrypt takes away what encrypt added (R108,
R112). -/
theorem caesar_decrypt_of_encrypt {b k e : List Sym} (h : caesar.encrypt b k = .ok e) :
    caesar.decrypt e k = .ok b := by
  obtain ⟨hchecks, shift, hshift, rfl⟩ := (bitShiftEnc_eq_ok b k e).mp h
  obtain ⟨-, -, hbits⟩ := (cipherChecks_ok b k).mp hchecks
  have hback : bitShiftEnc (xorFrom [shift] 0 b) k = .ok b :=
    (bitShiftEnc_eq_ok _ k b).mpr
      ⟨cipherChecks_xorFrom hchecks _, shift, hshift, (xorFrom_xorFrom _ 0 hbits).symm⟩
  exact (bitShiftDec_eq_bitShiftEnc _ k).trans hback

/-- Settles O35: the full slots hold the two built-in ciphers, and each of these inverts. -/
theorem registeredCiphersInvert : Obligations.RegisteredCiphersInvert := by
  refine ⟨registry_isSome, fun cid c hslot b k e h => ?_⟩
  rcases (registry_eq_some cid c).mp hslot with ⟨-, rfl⟩ | ⟨-, rfl⟩
  · exact vigenere_decrypt_of_encrypt h
  · exact caesar_decrypt_of_encrypt h

end Sys2Proof.Machine
end

section
/-! Proof of the statement about SIM (42_corruption_simulator.md R120 to R127): where its rate is in range it commits the
corruption of its stream, symbol by symbol, and what `Validate` makes of that. -/

namespace Sys2Proof.Machine

/-- A rate is in range up to `2^16`, that value included (R121). -/
theorem rateInRange_iff (rate : Rate) : rateInRange rate = true ↔ rate.toNat ≤ 65536 :=
  decide_eq_true_iff

/-- What a draw below the rate makes of a symbol: the other bit of a bit, and any other symbol itself (R124). -/
theorem flipped_sym_eq_ite (c : Sym) :
    (if isBit c then symOf (!bitVal c) else c) =
      if c = 0x30#8 then 0x31#8 else if c = 0x31#8 then 0x30#8 else c := by
  by_cases h0 : c = 0x30#8
  · subst h0; rfl
  by_cases h1 : c = 0x31#8
  · subst h1; rfl
  have hc : isBit c = false := by simp [isBit, Config.sym0, Config.sym1, h0, h1]
  simp [hc, h0, h1]

/-- A symbol after its draw, by the draw first and the symbol second (R123, R124). -/
theorem corruptSym_eq_ite (u : DrawValue) (rate : Rate) (c : Sym) :
    corruptSym u rate c =
      if u.toNat < rate.toNat then (if c = 0x30#8 then 0x31#8 else if c = 0x31#8 then 0x30#8 else c) else c := by
  rw [← flipped_sym_eq_ite]
  by_cases h : u.toNat < rate.toNat <;> simp [corruptSym, flips, h]

/-- The `STATUS` of a SIM that succeeds: `DET` alone, and only where `Validate` does not accept the output (R126). -/
theorem okStatus_detected (out : List Sym) :
    okStatus false (detected out) = if validateStream out = .ok true then 0x00#8 else 0x20#8 := by
  by_cases h : validateStream out = .ok true
  · have hd : detected out = false := by simp [detected, h]
    rw [hd, if_pos h]; rfl
  · rw [(detected_eq_true_iff out).mpr h, if_neg h]; rfl

/-- The draws leave the output alone. -/
theorem outputStream_setSource (s : State) (r : RandomSource) : outputStream (s.setSource r) = outputStream s := rfl

/-- SIM with a rate in range commits the corruption of its stream, and the source has answered one draw a position (R122,
R125, R127). -/
theorem exec_sim {s : State} {bits : List Sym} (hstream : inputStream s = some bits) (hrate : s.rate.toNat ≤ 65536) :
    exec .sim s = .next ((successCommit (corrupt s.rate bits s.rng).1 false
      (detected (corrupt s.rate bits s.rng).1) s).setSource (sourceAfter s.ilen s.rng)) := by
  have hlen : bits.length = s.ilen := ((inputStream_eq_some s bits).mp hstream).1
  rw [exec_eq (key := []) (fun _ => hstream) (by simp [readsKey]) (by simp), corrupt_eq_zipWith, ← hlen]
  simp [commandResult, commitResult, (rateInRange_iff s.rate).mpr hrate]

/-- Settles O10: SIM commits the corruption of its stream, and each position of it is the stream's symbol after the draw
for that position. -/
theorem simFlipsByDraws : Obligations.SimFlipsByDraws := by
  intro s bits hstream hrate
  have hlen : bits.length = s.ilen := ((inputStream_eq_some s bits).mp hstream).1
  have holen : (corrupt s.rate bits s.rng).1.length = s.ilen := (corrupt_length _ _ _).trans hlen
  refine ⟨_, _, exec_sim hstream hrate, ?output, holen, ?symbols, okStatus_detected _, ?rest,
    sameOperands_successCommit _ _ _ _ s, rfl⟩
  case output => rw [outputStream_setSource, outputStream_successCommit]
  case symbols =>
    intro i _ c hc
    rw [corrupt_getElem?, hc, Option.map_some, corruptSym_eq_ite]
  case rest =>
    intro j hj
    rw [State.setSource_obuf]
    exact read_successCommit_past_olen _ _ _ s hj

end Sys2Proof.Machine
end

section
/-! Proofs of the statements about errors (60_exceptions.md R145, R147): which check of a command fails first, and that
the error commit is all a failing command does. -/

namespace Sys2Proof.Machine

/-! ### The error commit (R147) -/

/-- A command that completes and leaves an error code did the error commit and no more. -/
theorem eq_errorCommit_of_errField_ne {i : Instr} {s t : State} (h : exec i s = .next t)
    (herr : errField t.status ≠ 0#4) : ∃ e, t = errorCommit e s := by
  rcases exec_next h with hcommit | ⟨out, v, det, n, rfl⟩
  · exact hcommit
  · exact absurd (errField_okStatus v det) herr

/-- Settles O14: a success commit leaves error code 0, so a command that reports an error did the error commit, whose
fields are then read off. -/
theorem errorCommitIsWholeEffect : Obligations.ErrorCommitIsWholeEffect := by
  refine ⟨fun i s t => eq_errorCommit_of_errField_ne, fun e s => ?_⟩
  obtain ⟨-, holen, hobuf, hsame, hrng⟩ := errorCommit_effect e s
  refine ⟨holen, ?code, hobuf, hsame, hrng⟩
  case code => cases e <;> rfl

/-! ### The rows that always fail (R145) -/

/-- A command with the mnemonic of an illegal row is in one of the illegal rows (R63). -/
theorem mem_illegalRows_of_mnemonic {i : Instr} (h : i.mnemonic ∈ ["ILLEGAL.OP0", "ILLEGAL.OP7", "ILLEGAL.OP8_15",
    "ILLEGAL.ENC_CID", "ILLEGAL.VAL_CID", "ILLEGAL.STRIP_CID", "ILLEGAL.SIM_CID"]) :
    ∃ cid low, i ∈ illegalRows cid low := by
  cases i with
  | illegalOp8 cid low => exact ⟨cid, low, by simp [illegalRows]⟩
  | illegalOp0 cid | illegalOp7 cid | illegalEncCid cid | illegalValCid cid | illegalStripCid cid
  | illegalSimCid cid => exact ⟨cid, 0#3, by simp [illegalRows]⟩
  | enc | val | strip | encrVigenere | encrCaesar | decrVigenere | decrCaesar | sim | encrUnreg | decrUnreg =>
    simp [Instr.mnemonic] at h

/-- A command with the mnemonic of an unregistered row is in one of the unregistered rows (R63). -/
theorem mem_unregisteredRows_of_mnemonic {i : Instr} (h : i.mnemonic ∈ ["ENCR.UNREG", "DECR.UNREG"]) :
    ∃ cid, i ∈ unregisteredRows cid := by
  cases i with
  | encrUnreg cid | decrUnreg cid => exact ⟨cid, by simp [unregisteredRows]⟩
  | enc | val | strip | encrVigenere | encrCaesar | decrVigenere | decrCaesar | sim | illegalOp0 | illegalOp7
  | illegalOp8 | illegalEncCid | illegalValCid | illegalStripCid | illegalSimCid => simp [Instr.mnemonic] at h

/-! ### The checks, in the order they are made (R145) -/

/-- A stream fails the charset check exactly when one of its symbols is no bit (R137). -/
theorem allBits_eq_false_iff (bits : List Sym) :
    allBits bits = false ↔ ∃ c, c ∈ bits ∧ c ≠ 0x30#8 ∧ c ≠ 0x31#8 := by
  simp [allBits, isBit, Config.sym0, Config.sym1]

/-- A stream passes the charset check exactly when all its symbols are bits (R137). -/
theorem allBits_eq_true_iff (bits : List Sym) :
    allBits bits = true ↔ ∀ c, c ∈ bits → c = 0x30#8 ∨ c = 0x31#8 := by
  simp [allBits, isBit, Config.sym0, Config.sym1]

theorem encodeStream_of_empty {bits : List Sym} (h : bits.length = 0) :
    encodeStream bits = .error .emptyInputError := if_pos h

theorem encodeStream_of_nonBit {bits : List Sym} (hne : bits.length ≠ 0) (hbits : allBits bits = false) :
    encodeStream bits = .error .charsetError := by
  rw [encodeStream, if_neg hne, if_pos hbits]

theorem protectedChecks_of_length {prot : List Sym} (h : prot.length % 11 ≠ 0) :
    protectedChecks prot = .error .lengthError := if_pos h

theorem protectedChecks_of_nonBit {prot : List Sym} (hlen : prot.length % 11 = 0) (hbits : allBits prot = false) :
    protectedChecks prot = .error .charsetError := by
  rw [protectedChecks, if_neg (not_not.mpr hlen), if_pos hbits]

theorem cipherChecks_of_empty {bits : List Sym} (key : List Sym) (h : bits.length = 0) :
    cipherChecks bits key = .error .emptyInputError := if_pos h

theorem cipherChecks_of_emptyKey {bits key : List Sym} (hne : bits.length ≠ 0) (hkey : key.length = 0) :
    cipherChecks bits key = .error .keyError := by
  rw [cipherChecks, if_neg hne, if_pos hkey]

theorem cipherChecks_of_nonBit {bits key : List Sym} (hne : bits.length ≠ 0) (hkey : key.length ≠ 0)
    (hbits : allBits bits = false) : cipherChecks bits key = .error .charsetError := by
  rw [cipherChecks, if_neg hne, if_neg hkey, if_pos hbits]

/-! ### The key that is no numeral (R68) -/

theorem isDigit_iff (c : Sym) : isDigit c = true ↔ 0x30 ≤ c.toNat ∧ c.toNat ≤ 0x39 := by
  simp [isDigit, BitVec.le_def]

/-- What `stripSign` takes from a key is nothing or one sign. -/
theorem exists_sign_append_stripSign (key : List Sym) :
    ∃ sign, key = sign ++ stripSign key ∧ (sign = [] ∨ sign = [0x2B#8] ∨ sign = [0x2D#8]) := by
  cases key with
  | nil => exact ⟨[], rfl, .inl rfl⟩
  | cons c cs =>
    by_cases h : c = 0x2B#8 ∨ c = 0x2D#8
    · exact ⟨[c], by simp [stripSign, h], .inr (by simpa using h)⟩
    · exact ⟨[], by simp [stripSign, h], .inl rfl⟩

/-- A key that is a non-empty run of digits after its optional sign is a numeral. -/
theorem exists_isNumeral {key : List Sym} (hne : stripSign key ≠ []) (hdigits : (stripSign key).all isDigit = true) :
    ∃ sign digits, IsNumeral key sign digits := by
  obtain ⟨sign, hkey, hsign⟩ := exists_sign_append_stripSign key
  exact ⟨sign, stripSign key, hkey, hsign, hne, fun c hc => (isDigit_iff c).mp (List.all_eq_true.mp hdigits c hc)⟩

/-- A key that is no numeral does not parse: a sign alone has no last digit, and any other such key has a character that
is no digit. -/
theorem parseShift_of_not_numeral {key : List Sym} (h : ¬ ∃ sign digits, IsNumeral key sign digits) :
    parseShift key = .error .keyError := by
  unfold parseShift
  split
  next => rfl
  next last hlast =>
    have hne : stripSign key ≠ [] := fun hnil => by simp [hnil] at hlast
    exact if_neg fun hdigits => h (exists_isNumeral hne hdigits)

/-! ### From a failed check to the error commit -/

/-- A command over readable operands whose result is an error does the error commit. -/
theorem exec_of_commandResult_error {i : Instr} {s : State} {bits key : List Sym} {e : ErrorName}
    (hbits : readsStream i = true → inputStream s = some bits) (hkey : readsKey i = true → inputKey s = some key)
    (hfit : i = .enc → encodedLength s.ilen ≤ s.params.nMax)
    (herr : commandResult i bits key s.rate (nextDraws bits.length s.rng) = .error e) :
    exec i s = .next (errorCommit e s) := by
  rw [exec_eq hbits hkey hfit, herr]
  rfl

/-- ENC reports the error of `Encode` (R85). -/
theorem exec_enc_of_error {s : State} {bits : List Sym} {e : ErrorName} (hstream : inputStream s = some bits)
    (hfit : encodedLength s.ilen ≤ s.params.nMax) (herr : encodeStream bits = .error e) :
    exec .enc s = .next (errorCommit e s) :=
  exec_of_commandResult_error (key := []) (fun _ => hstream) (by simp [readsKey]) (fun _ => hfit)
    (by simp [commandResult, herr, Except.map])

/-- VAL and STRIP report the check they share (R91, R95). -/
theorem exec_of_protectedChecks_error {i : Instr} (hi : i ∈ [Instr.val, Instr.strip]) {s : State} {bits : List Sym}
    {e : ErrorName} (hstream : inputStream s = some bits) (herr : protectedChecks bits = .error e) :
    exec i s = .next (errorCommit e s) := by
  simp only [List.mem_cons, List.not_mem_nil, or_false] at hi
  rcases hi with rfl | rfl <;>
    exact exec_of_commandResult_error (key := []) (fun _ => hstream) (by simp [readsKey]) (by simp)
      (by simp [commandResult, validateStream, stripStream, herr, Except.map])

/-- Every cipher command reports the check common to the ciphers (R101). -/
theorem exec_of_cipherChecks_error {i : Instr}
    (hi : i ∈ [Instr.encrVigenere, Instr.decrVigenere, Instr.encrCaesar, Instr.decrCaesar]) {s : State}
    {bits key : List Sym} {e : ErrorName} (hstream : inputStream s = some bits) (hkey : inputKey s = some key)
    (herr : cipherChecks bits key = .error e) : exec i s = .next (errorCommit e s) := by
  simp only [List.mem_cons, List.not_mem_nil, or_false] at hi
  rcases hi with rfl | rfl | rfl | rfl <;>
    exact exec_of_commandResult_error (fun _ => hstream) (fun _ => hkey) (by simp)
      (by simp [commandResult, xorStream, bitShiftEnc, bitShiftDec, herr, Except.map])

/-- Past the common check the CAESAR commands report a key that does not parse (R108). -/
theorem exec_of_parseShift_error {i : Instr} (hi : i ∈ [Instr.encrCaesar, Instr.decrCaesar]) {s : State}
    {bits key : List Sym} {e : ErrorName} (hstream : inputStream s = some bits) (hkey : inputKey s = some key)
    (hchecks : cipherChecks bits key = .ok ()) (herr : parseShift key = .error e) :
    exec i s = .next (errorCommit e s) := by
  simp only [List.mem_cons, List.not_mem_nil, or_false] at hi
  rcases hi with rfl | rfl <;>
    exact exec_of_commandResult_error (fun _ => hstream) (fun _ => hkey) (by simp)
      (by simp [commandResult, bitShiftEnc, bitShiftDec, hchecks, herr, Except.map])

/-- SIM reports a rate above `2^16` (R121). -/
theorem exec_sim_of_rate {s : State} {bits : List Sym} (hstream : inputStream s = some bits)
    (hrate : 65536 < s.rate.toNat) : exec .sim s = .next (errorCommit .rangeError s) := by
  have hrange : rateInRange s.rate = false := by
    rw [← Bool.not_eq_true, rateInRange_iff]
    omega
  exact exec_of_commandResult_error (key := []) (fun _ => hstream) (by simp [readsKey]) (by simp)
    (by simp [commandResult, hrange])

/-- Settles O13: the registers `ILEN` and `KLEN` are the lengths that the checks look at, so each case fixes the first
check that fails, and that check's error is committed. -/
theorem checksInOrder : Obligations.ChecksInOrder := by
  have hilen {s : State} {bits : List Sym} (h : inputStream s = some bits) : bits.length = s.ilen :=
    ((inputStream_eq_some s bits).mp h).1
  have hklen {s : State} {key : List Sym} (h : inputKey s = some key) : key.length = s.klen :=
    ((inputKey_eq_some s key).mp h).1
  refine ⟨?illegal, ?unregistered, ?enc, ?wholeCodewords, ?cipher, fun s bits => exec_sim_of_rate⟩
  case illegal =>
    intro b s h
    obtain ⟨cid, low, hrow⟩ := mem_illegalRows_of_mnemonic h
    exact exec_of_mem_illegalRows hrow s
  case unregistered =>
    intro b s h
    obtain ⟨cid, hrow⟩ := mem_unregisteredRows_of_mnemonic h
    exact exec_of_mem_unregisteredRows hrow s
  case enc =>
    intro s bits hstream hfit
    rw [← hilen hstream, ← allBits_eq_false_iff]
    exact ⟨fun h => exec_enc_of_error hstream hfit (encodeStream_of_empty h),
      fun hne hbits => exec_enc_of_error hstream hfit (encodeStream_of_nonBit hne hbits)⟩
  case wholeCodewords =>
    intro i hi s bits hstream
    rw [← hilen hstream, ← allBits_eq_false_iff]
    exact ⟨fun h => exec_of_protectedChecks_error hi hstream (protectedChecks_of_length h),
      fun hlen hbits => exec_of_protectedChecks_error hi hstream (protectedChecks_of_nonBit hlen hbits)⟩
  case cipher =>
    intro i hi s bits key hstream hkey
    rw [← hilen hstream, ← hklen hkey, ← allBits_eq_false_iff, ← allBits_eq_true_iff]
    have hreport {e : ErrorName} (herr : cipherChecks bits key = .error e) : exec i s = .next (errorCommit e s) :=
      exec_of_cipherChecks_error hi hstream hkey herr
    exact ⟨fun h => hreport (cipherChecks_of_empty key h),
      fun hne h => hreport (cipherChecks_of_emptyKey hne h),
      fun hne hk hbits => hreport (cipherChecks_of_nonBit hne hk hbits),
      fun hcaesar hne hk hbits hnum => exec_of_parseShift_error hcaesar hstream hkey
        ((cipherChecks_ok bits key).mpr ⟨hne, hk, hbits⟩) (parseShift_of_not_numeral hnum)⟩

end Sys2Proof.Machine
end

section
/-! Proofs of the statements about the command byte (30_encoding.md R60 to R65, R71): its two fields make the byte, the
decoder undoes the encoder, and the host's mnemonics name their commands. -/

namespace Sys2Proof.Machine

/-! ### The two fields of the byte (R60) -/

/-- `OP` is the low digit of the byte in base 16 (R60). -/
theorem opField_toNat (b : BitVec 8) : (opField b).toNat = b.toNat % 16 := by simp [opField]

/-- `CID` is the high digit of the byte in base 16 (R60). -/
theorem cidField_toNat (b : BitVec 8) : (cidField b).toNat = b.toNat / 16 := by
  simp only [cidField, BitVec.extractLsb'_toNat, Nat.shiftRight_eq_div_pow]
  omega

theorem commandByte_toNat (cid op : BitVec 4) : (commandByte cid op).toNat = 16 * cid.toNat + op.toNat := by
  have happend : (cid ++ op).toNat = cid.toNat <<< 4 ||| op.toNat := BitVec.toNat_append cid op
  rw [Nat.shiftLeft_eq, Nat.mul_comm, ← Nat.two_pow_add_eq_or_of_lt op.isLt] at happend
  exact happend

@[simp] theorem opField_commandByte (cid op : BitVec 4) : opField (commandByte cid op) = op := by
  apply BitVec.eq_of_toNat_eq
  rw [opField_toNat, commandByte_toNat]
  omega

@[simp] theorem cidField_commandByte (cid op : BitVec 4) : cidField (commandByte cid op) = cid := by
  apply BitVec.eq_of_toNat_eq
  rw [cidField_toNat, commandByte_toNat]
  omega

/-- A byte is made of its two fields, so it has no bit beside them (R60). -/
theorem commandByte_fields (b : BitVec 8) : commandByte (cidField b) (opField b) = b := by
  apply BitVec.eq_of_toNat_eq
  rw [commandByte_toNat, cidField_toNat, opField_toNat]
  omega

/-! ### Decoding undoes encoding (R62, R63) -/

/-- An `OP` of 8 to 15 is kept by its low three bits (R64). -/
theorem one_append_low {op : BitVec 4} (h : 8 ≤ op.toNat) : 1#1 ++ op.extractLsb' 0 3 = op := by
  revert op
  decide

theorem one_append_ge (low : BitVec 3) : 8 ≤ (1#1 ++ low : BitVec 4).toNat := by
  revert low
  decide

/-- The byte of an ILLEGAL.OP8_15 row has the row's low bits (R64). -/
theorem extract_low_commandByte (cid : BitVec 4) (low : BitVec 3) :
    (commandByte cid (1#1 ++ low)).extractLsb' 0 3 = low := by
  revert cid low
  decide

/-- The byte of an `OP` of 8 to 15 decodes to ILLEGAL.OP8_15 (R64). -/
theorem decodeByte_of_op_ge {b : BitVec 8} (h : 8 ≤ (opField b).toNat) :
    decodeByte b = .illegalOp8 (cidField b) (b.extractLsb' 0 3) := by
  unfold decodeByte
  split
  case h_9 => rfl
  all_goals omega

/-- The decoder reads back the byte of a well-formed command (R60, R62, R63). -/
theorem decodeByte_encodeByte {i : Instr} (h : i.wf = true) : decodeByte (encodeByte i) = i := by
  cases i with
  | enc | val | strip | encrVigenere | encrCaesar | decrVigenere | decrCaesar | sim => rfl
  | illegalOp0 cid | illegalOp7 cid => simp [encodeByte, decodeByte]
  | illegalOp8 cid low =>
    have hop : 8 ≤ (opField (commandByte cid (1#1 ++ low))).toNat := by
      rw [opField_commandByte]
      exact one_append_ge low
    rw [encodeByte, decodeByte_of_op_ge hop]
    rw [cidField_commandByte, extract_low_commandByte]
  | encrUnreg cid | decrUnreg cid =>
    have hcid : 2 ≤ cid.toNat := of_decide_eq_true h
    have h0 : cid ≠ 0#4 := by rintro rfl; simp at hcid
    have h1 : cid ≠ 1#4 := by rintro rfl; simp at hcid
    simp [encodeByte, decodeByte, h0, h1]
  | illegalEncCid cid | illegalValCid cid | illegalStripCid cid | illegalSimCid cid =>
    have hcid : cid ≠ 0#4 := bne_iff_ne.mp h
    simp [encodeByte, decodeByte, hcid]

/-- Every byte decodes to a command its row admits (R62, R63). -/
theorem decodeByte_wf (b : BitVec 8) : (decodeByte b).wf = true := by
  have hunreg {cid : BitVec 4} (h0 : cid ≠ 0#4) (h1 : cid ≠ 1#4) : unregistered cid = true := by
    revert cid
    decide
  unfold decodeByte
  dsimp only
  split
  case h_1 | h_8 | h_9 => rfl
  case h_2 | h_3 | h_4 | h_7 =>
    split
    · rfl
    · rename_i hcid
      exact bne_iff_ne.mpr hcid
  case h_5 | h_6 =>
    split
    · rfl
    · split
      · rfl
      · rename_i h0 h1
        exact hunreg h0 h1

/-- A byte whose `OP` is known is made of its `CID` and that `OP` (R60). -/
theorem commandByte_of_op {b : BitVec 8} (op : BitVec 4) (h : (opField b).toNat = op.toNat) :
    commandByte (cidField b) op = b := by
  rw [← BitVec.eq_of_toNat_eq h, commandByte_fields]

/-- The rows of an operation without cipher, `CID` 0 and the others, have the byte they are decoded from. -/
theorem encodeByte_ite_cid {b : BitVec 8} {i j : Instr} (op : BitVec 4) (h : (opField b).toNat = op.toNat)
    (hi : encodeByte i = commandByte 0#4 op) (hj : encodeByte j = commandByte (cidField b) op) :
    encodeByte (if cidField b = 0#4 then i else j) = b := by
  split
  next hcid => rw [hi, ← hcid, commandByte_of_op op h]
  next => rw [hj, commandByte_of_op op h]

/-- The rows of a cipher operation past `CID` 0: `CID` 1 and the unregistered identifiers. -/
theorem encodeByte_ite_cipher {cid op : BitVec 4} {i j : Instr} (hi : encodeByte i = commandByte 1#4 op)
    (hj : encodeByte j = commandByte cid op) : encodeByte (if cid = 1#4 then i else j) = commandByte cid op := by
  split
  next hcid => rw [hi, hcid]
  next => exact hj

/-- The command a byte decodes to is encoded as that byte (R62, R63). -/
theorem encodeByte_decodeByte (b : BitVec 8) : encodeByte (decodeByte b) = b := by
  by_cases hop : 8 ≤ (opField b).toNat
  · have hlow : b.extractLsb' 0 3 = (opField b).extractLsb' 0 3 := by
      rw [← commandByte_fields b, opField_commandByte, ← one_append_low hop, extract_low_commandByte,
        one_append_low hop]
    rw [decodeByte_of_op_ge hop, encodeByte, hlow, one_append_low hop, commandByte_fields]
  · unfold decodeByte
    dsimp only
    split
    case h_1 h => exact commandByte_of_op 0#4 h
    case h_2 h => exact encodeByte_ite_cid 1#4 h rfl rfl
    case h_3 h => exact encodeByte_ite_cid 2#4 h rfl rfl
    case h_4 h => exact encodeByte_ite_cid 3#4 h rfl rfl
    case h_5 h => exact encodeByte_ite_cid 4#4 h rfl (encodeByte_ite_cipher rfl rfl)
    case h_6 h => exact encodeByte_ite_cid 5#4 h rfl (encodeByte_ite_cipher rfl rfl)
    case h_7 h => exact encodeByte_ite_cid 6#4 h rfl rfl
    case h_8 h => exact commandByte_of_op 7#4 h
    case h_9 =>
      simp only [imp_false] at *
      omega

/-- Settles O1: both directions, the bytes that follow a command being handed back untouched. -/
theorem decodeInvertsEncode : Obligations.DecodeInvertsEncode := by
  refine ⟨fun i rest h => ?_, fun b => ⟨decodeByte_wf b, encodeByte_decodeByte b⟩⟩
  rw [encode, List.singleton_append, decode, decodeByte_encodeByte h]

/-! ### The command map (R63) -/

/-- The byte of a well-formed command belongs to one row of the command map, the row with its mnemonic (R63). -/
theorem rows_of_encodeByte {i : Instr} (h : i.wf = true) :
    (commandMap.filter fun r => r.holds (encodeByte i)).map (·.mnemonic) = [i.mnemonic] := by
  cases i with
  | enc => exact Laws.EncodeMatchesRow.enc h
  | val => exact Laws.EncodeMatchesRow.val h
  | strip => exact Laws.EncodeMatchesRow.strip h
  | encrVigenere => exact Laws.EncodeMatchesRow.encrVigenere h
  | encrCaesar => exact Laws.EncodeMatchesRow.encrCaesar h
  | decrVigenere => exact Laws.EncodeMatchesRow.decrVigenere h
  | decrCaesar => exact Laws.EncodeMatchesRow.decrCaesar h
  | sim => exact Laws.EncodeMatchesRow.sim h
  | encrUnreg cid => exact Laws.EncodeMatchesRow.encrUnreg cid h
  | decrUnreg cid => exact Laws.EncodeMatchesRow.decrUnreg cid h
  | illegalOp0 cid => exact Laws.EncodeMatchesRow.illegalOp0 cid h
  | illegalOp7 cid => exact Laws.EncodeMatchesRow.illegalOp7 cid h
  | illegalOp8 cid low => exact Laws.EncodeMatchesRow.illegalOp8 cid low h
  | illegalEncCid cid => exact Laws.EncodeMatchesRow.illegalEncCid cid h
  | illegalValCid cid => exact Laws.EncodeMatchesRow.illegalValCid cid h
  | illegalStripCid cid => exact Laws.EncodeMatchesRow.illegalStripCid cid h
  | illegalSimCid cid => exact Laws.EncodeMatchesRow.illegalSimCid cid h

/-- A count over `a * b` numbers is the sum of the counts over `a` blocks of `b` of them. -/
theorem countP_range_mul (p : Nat → Bool) (a b : Nat) :
    (List.range (a * b)).countP p = ((List.range a).map fun i => (List.range b).countP fun j => p (b * i + j)).sum := by
  induction a with
  | zero => simp
  | succ a ih =>
    rw [Nat.succ_mul, List.range_add, List.countP_append, ih, List.range_succ, List.map_append, List.sum_append,
      List.countP_map, Nat.mul_comm a b]
    simp [Function.comp_def]

/-- Settles O2: the row of a byte is the row of the command it decodes to, and the bytes are counted by their `CID`. -/
theorem everyByteHasOneRow : Obligations.EveryByteHasOneRow := by
  have hblocks : 256 = 16 * 16 := rfl
  rw [Obligations.EveryByteHasOneRow, hblocks, countP_range_mul, countP_range_mul, countP_range_mul]
  refine ⟨fun b => ?_, by decide, by decide, by decide⟩
  have hrows := rows_of_encodeByte (decodeByte_wf b)
  rwa [encodeByte_decodeByte] at hrows

/-- Settles O3: each byte is decoded by its two fields. -/
theorem writtenBytesDecode : Obligations.WrittenBytesDecode := by
  unfold Obligations.WrittenBytesDecode
  decide

/-! ### A write of CMD (10_state.md R14; R62) -/

/-- The host's write of a byte to `CMD` runs the command it decodes to (R14, R62). -/
theorem performAccess_writeCmd (w : BitVec 8) (s : State) :
    performAccess (.writeRegister 0 w.toNat) s = exec (decodeByte w) (s.setCmd w) := by
  have hfits : ¬ 2 ^ 8 ≤ w.toNat := by omega
  simp only [performAccess, hostWriteRegister, registerWidth, if_neg hfits, writeFitting, runCommand,
    BitVec.ofNat_toNat, BitVec.setWidth_eq]

@[simp] theorem setPending_setPending (s : State) (ops ops' : List HostOp) :
    (s.setPending ops).setPending ops' = s.setPending ops' := rfl

theorem setPending_self (s : State) : s.setPending s.host.pending = s := rfl

/-- The byte a table word of eight bits stands for. -/
theorem withFetchWord_byte (s : State) (w : BitVec 8) :
    s.withFetchWord 8 w.toNat = s.setPending (.access (.writeRegister 0 w.toNat) :: s.host.pending) := by
  simp [State.withFetchWord, withCommandNext, tableBytes]

/-- Settles O4: a write of `CMD` is performed on the rest of the list, and an idle host's step is no step. -/
theorem stepRunsDecodedCommand : Obligations.StepRunsDecodedCommand := by
  refine ⟨fun s w rest hp => ⟨decodeByte_wf w, ?_⟩, fun s w => ?_, fun s => step_idle⟩
  · rw [step_access hp, performAccess_writeCmd]
  · rw [withFetchWord_byte, step_access rfl, setPending_setPending, setPending_self, performAccess_writeCmd]

/-! ### The host's mnemonics (R71) -/

/-- A pseudo-operation takes one step to be replaced by its accesses (R73; log 11). -/
theorem step_pseudo {s : State} {p : Pseudo} {rest ops : List HostOp} (h : s.host.pending = .pseudo p :: rest)
    (hops : expand p (s.setPending rest) = some ops) : step s = .next (s.setPending (ops ++ rest)) := by
  simp [step, performNext, h, performOp, hops]

/-- `ENCR.n` is assembled to the byte of an unregistered row (R71). -/
theorem decodeByte_assemble_encrN (k : Fin 14) :
    (assemble (.encrN k)).toNat = 16 * (k.val + 2) + 4 ∧
      decodeByte (assemble (.encrN k)) = .encrUnreg (BitVec.ofNat 4 (k.val + 2)) := by
  revert k
  decide

/-- `DECR.n` is assembled to the byte of an unregistered row (R71). -/
theorem decodeByte_assemble_decrN (k : Fin 14) :
    (assemble (.decrN k)).toNat = 16 * (k.val + 2) + 5 ∧
      decodeByte (assemble (.decrN k)) = .decrUnreg (BitVec.ofNat 4 (k.val + 2)) := by
  revert k
  decide

/-- Settles O46: in every row of R71 the mnemonic is assembled to the byte, and the byte decodes to the
command. -/
theorem mnemonicsRunTheirCommands : Obligations.MnemonicsRunTheirCommands := by
  intro s rest c w i hrow hp
  have hbyte : assemble c = w ∧ decodeByte w = i := by
    rcases hrow with hmem | ⟨k, rfl, hw, rfl⟩ | ⟨k, rfl, hw, rfl⟩ | ⟨rfl, rfl⟩
    · simp only [List.mem_cons, List.not_mem_nil, or_false, Prod.mk.injEq] at hmem
      rcases hmem with h | h | h | h | h | h | h | h <;> obtain ⟨rfl, rfl, rfl⟩ := h <;> exact ⟨rfl, rfl⟩
    · obtain ⟨hval, hdecode⟩ := decodeByte_assemble_encrN k
      have heq : assemble (.encrN k) = w := BitVec.eq_of_toNat_eq (hval.trans hw.symm)
      exact ⟨heq, heq ▸ hdecode⟩
    · obtain ⟨hval, hdecode⟩ := decodeByte_assemble_decrN k
      have heq : assemble (.decrN k) = w := BitVec.eq_of_toNat_eq (hval.trans hw.symm)
      exact ⟨heq, heq ▸ hdecode⟩
    · exact ⟨rfl, rfl⟩
  obtain ⟨rfl, rfl⟩ := hbyte
  refine ⟨step_pseudo hp rfl, ?_⟩
  rw [step_access rfl, setPending_setPending, performAccess_writeCmd]

end Sys2Proof.Machine
end

section
/-! Proofs of the statements about every command (10_state.md R23, R27, R28, R30; 20_memory.md R51;
42_corruption_simulator.md R121, R122; 70_reset_and_hazards.md R165 (c), (e)): what the pure function `commandResult`
gives, and when a command has operands to give it. -/

namespace Sys2Proof.Machine

/-! ### When the functions of ParityCodec succeed, and with what (R84, R90, R94) -/

/-- When `Encode` succeeds, and with what (R84). -/
theorem encodeStream_eq_ok_iff (bits out : List Sym) :
    encodeStream bits = .ok out ↔ bits.length ≠ 0 ∧ allBits bits = true ∧ out = encodedSymbols bits := by
  by_cases hne : bits.length = 0
  · simp [encodeStream_of_empty hne, hne]
  cases hbits : allBits bits with
  | false => simp [encodeStream_of_nonBit hne hbits]
  | true => simp [encodeStream_eq_ok hne hbits, hne, eq_comm]

/-- Every codeword of a protected stream matches its parity bits (R90). -/
def allBlocksValid (prot : List Sym) : Bool :=
  (List.range (prot.length / 11)).all fun g => blockValid (codewordAt prot g)

/-- When `Validate` gives a verdict, and which (R90). -/
theorem validateStream_eq_ok_iff (prot : List Sym) (v : Bool) :
    validateStream prot = .ok v ↔ protectedChecks prot = .ok () ∧ v = allBlocksValid prot := by
  unfold validateStream allBlocksValid
  cases protectedChecks prot <;> simp [eq_comm]

/-- The symbols at the data positions of every codeword of a protected stream (R94). -/
def strippedSymbols (prot : List Sym) : List Sym :=
  (List.range (prot.length / 11)).flatMap fun g => dataOffsets.map fun o => prot.getD (11 * g + o) Config.sym0

/-- When `Strip` succeeds, and with what (R94). -/
theorem stripStream_eq_ok_iff (prot out : List Sym) :
    stripStream prot = .ok out ↔ protectedChecks prot = .ok () ∧ out = strippedSymbols prot := by
  unfold stripStream strippedSymbols
  cases protectedChecks prot <;> simp [eq_comm]

/-- When the bit-shift cipher's decrypt succeeds, and with what (R108). -/
theorem bitShiftDec_eq_ok (bits key e : List Sym) :
    bitShiftDec bits key = .ok e ↔
      cipherChecks bits key = .ok () ∧ ∃ shift, parseShift key = .ok shift ∧ e = xorFrom [shift] 0 bits := by
  rw [bitShiftDec_eq_bitShiftEnc, bitShiftEnc_eq_ok]

/-! ### Outputs are made of bits (R27) -/

theorem allBits_encodedSymbols (bits : List Sym) : allBits (encodedSymbols bits) = true := by
  simp [allBits, encodedSymbols, List.all_flatMap]

/-- An element of an all-bit stream is a bit, and so is the default past its end. -/
theorem isBit_getD {bits : List Sym} (h : allBits bits = true) (k : Nat) :
    isBit (bits.getD k Config.sym0) = true := by
  rw [List.getD_eq_getElem?_getD]
  cases hc : bits[k]? with
  | none => rfl
  | some c => exact List.all_eq_true.mp h c (List.mem_of_getElem? hc)

theorem allBits_strippedSymbols {prot : List Sym} (h : allBits prot = true) :
    allBits (strippedSymbols prot) = true := by
  have helem : ∀ g, (dataOffsets.map fun o => prot.getD (11 * g + o) Config.sym0).all isBit = true := by
    intro g
    rw [List.all_map, List.all_eq_true]
    exact fun o _ => isBit_getD h _
  rw [allBits, strippedSymbols, List.all_flatMap, List.all_eq_true]
  exact fun g _ => helem g

/-! ### What the result of a command is -/

/-- A result made of a stream alone: its output is the stream, no flag is raised and no draw is taken. -/
theorem streamResult_eq_ok_iff {r : Except ErrorName (List Sym)} {out : List Sym} {v det : Bool} {n : Nat} :
    (r.map fun out => (out, false, false, 0)) = .ok (out, v, det, n) ↔
      r = .ok out ∧ v = false ∧ det = false ∧ n = 0 := by
  cases r <;> simp [Except.map, eq_comm]

/-- The result of VAL: no output, the verdict as its flag, no draw (R91). -/
theorem valResult_eq_ok_iff {r : Except ErrorName Bool} {out : List Sym} {v det : Bool} {n : Nat} :
    (r.map fun v => (([] : List Sym), v, false, 0)) = .ok (out, v, det, n) ↔
      r = .ok v ∧ out = [] ∧ det = false ∧ n = 0 := by
  cases r <;> simp [Except.map, eq_comm, and_left_comm]

/-- The result of SIM: the corrupted stream and whether it is detected, for one draw a position (R127). -/
theorem commandResult_sim_eq_ok_iff {bits key out : List Sym} {rate : Rate} {draws : List DrawValue} {v det : Bool}
    {n : Nat} :
    commandResult .sim bits key rate draws = .ok (out, v, det, n) ↔
      rateInRange rate = true ∧ out = List.zipWith (fun u c => corruptSym u rate c) draws bits ∧ v = false ∧
        det = detected out ∧ n = bits.length := by
  simp only [commandResult]
  cases rateInRange rate with
  | false => simp
  | true =>
    simp only [reduceCtorEq, if_false, Except.ok.injEq, Prod.mk.injEq, true_and]
    constructor <;>
    · rintro ⟨rfl, rfl, rfl, rfl⟩
      exact ⟨rfl, rfl, rfl, rfl⟩

/-- A command other than SIM gives bits and takes no draw (R27, R153). -/
theorem commandResult_of_ne_sim {i : Instr} {bits key out : List Sym} {rate : Rate} {draws : List DrawValue}
    {v det : Bool} {n : Nat} (hi : i ≠ .sim) (h : commandResult i bits key rate draws = .ok (out, v, det, n)) :
    allBits out = true ∧ n = 0 := by
  cases i with
  | enc =>
    obtain ⟨hout, -, -, hn⟩ := streamResult_eq_ok_iff.mp h
    obtain ⟨-, -, rfl⟩ := (encodeStream_eq_ok_iff bits out).mp hout
    exact ⟨allBits_encodedSymbols bits, hn⟩
  | val =>
    obtain ⟨-, rfl, -, hn⟩ := valResult_eq_ok_iff.mp h
    exact ⟨rfl, hn⟩
  | strip =>
    obtain ⟨hout, -, -, hn⟩ := streamResult_eq_ok_iff.mp h
    obtain ⟨hchecks, rfl⟩ := (stripStream_eq_ok_iff bits out).mp hout
    obtain ⟨-, hbits⟩ := (protectedChecks_ok bits).mp hchecks
    exact ⟨allBits_strippedSymbols hbits, hn⟩
  | encrVigenere | decrVigenere =>
    obtain ⟨hout, -, -, hn⟩ := streamResult_eq_ok_iff.mp h
    obtain ⟨-, rfl⟩ := (xorStream_eq_ok bits key out).mp hout
    exact ⟨allBits_xorFrom _ _ _, hn⟩
  | encrCaesar =>
    obtain ⟨hout, -, -, hn⟩ := streamResult_eq_ok_iff.mp h
    obtain ⟨-, shift, -, rfl⟩ := (bitShiftEnc_eq_ok bits key out).mp hout
    exact ⟨allBits_xorFrom _ _ _, hn⟩
  | decrCaesar =>
    obtain ⟨hout, -, -, hn⟩ := streamResult_eq_ok_iff.mp h
    obtain ⟨-, shift, -, rfl⟩ := (bitShiftDec_eq_ok bits key out).mp hout
    exact ⟨allBits_xorFrom _ _ _, hn⟩
  | sim => exact absurd rfl hi
  | encrUnreg | decrUnreg | illegalOp0 | illegalOp7 | illegalOp8 | illegalEncCid | illegalValCid | illegalStripCid
  | illegalSimCid => cases h

/-- Only ENC gives an output longer than its stream (R84, R94, R103, R108, R125). -/
theorem commandResult_length {i : Instr} {bits key out : List Sym} {rate : Rate} {draws : List DrawValue}
    {v det : Bool} {n : Nat} (h : commandResult i bits key rate draws = .ok (out, v, det, n)) :
    out.length ≤ bits.length ∨ (i = .enc ∧ out.length = encodedLength bits.length) := by
  cases i with
  | enc =>
    obtain ⟨hout, -⟩ := streamResult_eq_ok_iff.mp h
    exact .inr ⟨rfl, encodeStream_length hout⟩
  | val =>
    obtain ⟨-, rfl, -⟩ := valResult_eq_ok_iff.mp h
    exact .inl (Nat.zero_le _)
  | strip =>
    obtain ⟨hout, -⟩ := streamResult_eq_ok_iff.mp h
    have hlen := stripStream_length hout
    exact .inl (by omega)
  | encrVigenere | decrVigenere =>
    obtain ⟨hout, -⟩ := streamResult_eq_ok_iff.mp h
    obtain ⟨-, rfl⟩ := (xorStream_eq_ok bits key out).mp hout
    exact .inl (xorFrom_length _ _ _).le
  | encrCaesar =>
    obtain ⟨hout, -⟩ := streamResult_eq_ok_iff.mp h
    obtain ⟨-, shift, -, rfl⟩ := (bitShiftEnc_eq_ok bits key out).mp hout
    exact .inl (xorFrom_length _ _ _).le
  | decrCaesar =>
    obtain ⟨hout, -⟩ := streamResult_eq_ok_iff.mp h
    obtain ⟨-, shift, -, rfl⟩ := (bitShiftDec_eq_ok bits key out).mp hout
    exact .inl (xorFrom_length _ _ _).le
  | sim =>
    obtain ⟨-, rfl, -⟩ := commandResult_sim_eq_ok_iff.mp h
    exact .inl (by simp)
  | encrUnreg | decrUnreg | illegalOp0 | illegalOp7 | illegalOp8 | illegalEncCid | illegalValCid | illegalStripCid
  | illegalSimCid => cases h

/-- Only SIM reads the rate and the draws (R66). -/
theorem commandResult_congr_of_ne_sim {i : Instr} (hi : i ≠ .sim) (bits key : List Sym) (rate rate' : Rate)
    (draws draws' : List DrawValue) : commandResult i bits key rate draws = commandResult i bits key rate' draws' := by
  cases i with
  | sim => exact absurd rfl hi
  | _ => rfl

/-- A command that completes did the error commit, or the success commit of a result its operands give. -/
theorem exec_next_cases {i : Instr} {s t : State} (h : exec i s = .next t) :
    (∃ e, t = errorCommit e s) ∨
    (∃ bits key out v det n, (readsStream i = true → inputStream s = some bits) ∧
      (i = .enc → encodedLength s.ilen ≤ s.params.nMax) ∧
      commandResult i bits key s.rate (nextDraws bits.length s.rng) = .ok (out, v, det, n) ∧
      t = (successCommit out v det s).setSource (sourceAfter n s.rng)) := by
  obtain ⟨bits, key, hbits, -, hfit, rfl⟩ := exec_next_result h
  cases hr : commandResult i bits key s.rate (nextDraws bits.length s.rng) with
  | error e => exact .inl ⟨e, rfl⟩
  | ok result =>
    obtain ⟨out, v, det, n⟩ := result
    exact .inr ⟨bits, key, out, v, det, n, hbits, hfit, hr, rfl⟩

/-! ### The output region (R23, R28, R148) -/

/-- A success commit gives values to exactly the cells below the new `OLEN` (R28). -/
theorem holdsValue_ofStream (out : List Sym) (j : Nat) : holdsValue (Memory.ofStream out) j ↔ j < out.length := by
  simp [holdsValue, List.getElem?_eq_some_iff]

/-- The cells of an all-bit output hold bits (R27). -/
theorem isBit_of_read_ofStream {out : List Sym} (hbits : allBits out = true) {j : Nat} {v : Sym}
    (h : Memory.read (Memory.ofStream out) j = some v) : isBit v = true := by
  rw [Memory.read_ofStream] at h
  exact List.all_eq_true.mp hbits v (List.mem_of_getElem? h)

theorem not_holdsValue_nil (j : Nat) : ¬ holdsValue [] j := by simp [holdsValue]

/-- After a command exactly the cells below `OLEN` hold a value (R23, R28). -/
theorem exec_obuf_defined {i : Instr} {s t : State} (h : exec i s = .next t) (j : Nat) :
    holdsValue t.obuf j ↔ j < t.olen := by
  rcases exec_next h with ⟨e, rfl⟩ | ⟨out, v, det, n, rfl⟩
  · simp [not_holdsValue_nil]
  · exact holdsValue_ofStream out j

/-- A command other than SIM leaves only bits in `OBUF` (R27). -/
theorem exec_obuf_bits {i : Instr} {s t : State} (h : exec i s = .next t) (hi : i ≠ .sim) {j : Nat} {c : Sym}
    (hc : Memory.read t.obuf j = some c) : isBit c = true := by
  rcases exec_next_cases h with ⟨e, rfl⟩ | ⟨bits, key, out, v, det, n, -, -, hr, rfl⟩
  · simp at hc
  · exact isBit_of_read_ofStream (commandResult_of_ne_sim hi hr).1 hc

theorem isBit_iff (c : Sym) : isBit c = true ↔ c = 0x30#8 ∨ c = 0x31#8 := by
  simp [isBit, Config.sym0, Config.sym1]

/-- Settles O16: either commit fixes the region, and every output but SIM's is made of bits. -/
theorem outputRegionIsDefined : Obligations.OutputRegionIsDefined :=
  fun _ _ _ h => ⟨exec_obuf_defined h, fun hi _ _ hc => (isBit_iff _).mp (exec_obuf_bits h hi hc)⟩

/-! ### Results depend on operands alone (R30, R51) -/

/-- What a commit writes of CORE depends on the result alone (R30). -/
theorem commitResult_congr (r : Except ErrorName (List Sym × Bool × Bool × Nat)) (s t : State) :
    (commitResult r t).obuf = (commitResult r s).obuf ∧ (commitResult r t).olen = (commitResult r s).olen ∧
      (commitResult r t).status = (commitResult r s).status := by
  cases r <;> exact ⟨rfl, rfl, rfl⟩

/-- Buffers that agree below a length have the same stream of that length. -/
theorem readRegion_congr_of_lt {m m' : Memory} {n : Nat} (h : ∀ k, k < n → Memory.read m k = Memory.read m' k)
    {vs : List Sym} (hm : Memory.readRegion m 0 n = some vs) : Memory.readRegion m' 0 n = some vs := by
  obtain ⟨hlen, hcell⟩ := (Memory.readRegion_eq_some m 0 n vs).mp hm
  refine (Memory.readRegion_eq_some m' 0 n vs).mpr ⟨hlen, fun k hk => ?_⟩
  rw [← hcell k hk, Nat.zero_add, h k hk]

/-- States a command cannot tell apart give it the same stream (R30). -/
theorem SameInputs.inputStream_eq {i : Instr} {s t : State} (h : SameInputs i s t) (hi : readsStream i = true)
    {bits : List Sym} (hs : inputStream s = some bits) : inputStream t = some bits := by
  obtain ⟨hlen, hcells⟩ := h.stream hi
  rw [inputStream, ← hlen]
  exact readRegion_congr_of_lt hcells hs

/-- States a command cannot tell apart give it the same key (R30). -/
theorem SameInputs.inputKey_eq {i : Instr} {s t : State} (h : SameInputs i s t) (hi : readsKey i = true)
    {key : List Sym} (hs : inputKey s = some key) : inputKey t = some key := by
  obtain ⟨hlen, hcells⟩ := h.key hi
  rw [inputKey, ← hlen]
  exact readRegion_congr_of_lt hcells hs

/-- States a command cannot tell apart give it the same result: only SIM reads more than the stream and the key. -/
theorem SameInputs.commandResult_eq {i : Instr} {s t : State} (h : SameInputs i s t) {bits : List Sym}
    (hbits : readsStream i = true → inputStream s = some bits) (key : List Sym) :
    commandResult i bits key t.rate (nextDraws bits.length t.rng) =
      commandResult i bits key s.rate (nextDraws bits.length s.rng) := by
  by_cases hi : i = .sim
  · subst hi
    obtain ⟨hrate, hdraws⟩ := h.sim rfl
    obtain ⟨hlen, -⟩ := h.stream rfl
    have hbitsLen : bits.length = s.ilen := ((inputStream_eq_some s bits).mp (hbits rfl)).1
    rw [hrate, hbitsLen, hdraws, hlen]
  · exact commandResult_congr_of_ne_sim hi bits key _ _ _ _

/-- Settles O18: the second state gives the command the same result, and the commit of a result writes the same. -/
theorem resultDependsOnlyOnOperands : Obligations.ResultDependsOnlyOnOperands := by
  intro i s t s' hsame h
  obtain ⟨bits, key, hbits, hkey, hfit, rfl⟩ := exec_next_result h
  have hfit' : i = .enc → encodedLength t.ilen ≤ t.params.nMax := by
    rintro rfl
    rw [← hsame.params, ← (hsame.stream rfl).1]
    exact hfit rfl
  have hbits' : readsStream i = true → inputStream t = some bits := fun hi => hsame.inputStream_eq hi (hbits hi)
  have hkey' : readsKey i = true → inputKey t = some key := fun hi => hsame.inputKey_eq hi (hkey hi)
  refine ⟨_, exec_eq hbits' hkey' hfit', ?_⟩
  rw [hsame.commandResult_eq hbits key]
  exact commitResult_congr _ s t

/-- The commit of a result that took no draw, done twice, is done once. -/
theorem commitResult_idem {r : Except ErrorName (List Sym × Bool × Bool × Nat)}
    (hr : ∀ out v det n, r = .ok (out, v, det, n) → n = 0) (s : State) :
    commitResult r (commitResult r s) = commitResult r s := by
  cases r with
  | error e => rfl
  | ok result =>
    obtain ⟨out, v, det, n⟩ := result
    obtain rfl := hr out v det n rfl
    simp only [commitResult, sourceAfter_zero]
    rfl

/-- Settles O19: the command finds its operands as they were, so it gives the same result, and the second commit of a
result without draws changes nothing. -/
theorem secondIssueChangesNothing : Obligations.SecondIssueChangesNothing := by
  intro i s t hi h
  have hsame := exec_sameOperands h
  obtain ⟨bits, key, hbits, hkey, hfit, ht⟩ := exec_next_result h
  rw [exec_eq (bits := bits) (key := key) (fun hr => hsame.inputStream_eq.trans (hbits hr))
      (fun hr => hsame.inputKey_eq.trans (hkey hr)) (fun he => by rw [hsame.ilen, hsame.params]; exact hfit he),
    commandResult_congr_of_ne_sim hi bits key t.rate s.rate _ (nextDraws bits.length s.rng), ht,
    commitResult_idem fun _ _ _ _ hr => (commandResult_of_ne_sim hi hr).2]

/-! ### Draws (R121, R122, R153) -/

/-- Settles O41: a SIM out of range fails before its first draw, one in range takes a draw a position, and no other
result takes any. -/
theorem drawsPerCommand : Obligations.DrawsPerCommand := by
  intro i s t h
  by_cases hi : i = .sim
  · subst hi
    obtain ⟨bits, hstream, -⟩ := withStream_next h
    rcases Nat.lt_or_ge 65536 s.rate.toNat with hrate | hrate
    · rw [exec_sim_of_rate hstream hrate] at h
      cases h
      simp [Nat.not_le.mpr hrate]
    · rw [exec_sim hstream hrate] at h
      cases h
      simp [hrate]
  · rw [if_neg (fun hc => hi hc.1)]
    rcases exec_next_cases h with ⟨e, rfl⟩ | ⟨bits, key, out, v, det, n, -, -, hr, rfl⟩
    · rfl
    · rw [(commandResult_of_ne_sim hi hr).2, sourceAfter_zero, State.setSource_rng]

/-! ### When a command completes (R165 (c), (e)) -/

/-- The stream is readable exactly when each of its cells holds a value (R28). -/
theorem inputStream_isSome_iff (s : State) :
    (∃ bits, inputStream s = some bits) ↔ ∀ k, k < s.ilen → holdsValue s.ibuf k := by
  simpa [inputStream, holdsValue] using Memory.readRegion_isSome s.ibuf 0 s.ilen

/-- The key is readable exactly when each of its cells holds a value (R28). -/
theorem inputKey_isSome_iff (s : State) :
    (∃ key, inputKey s = some key) ↔ ∀ k, k < s.klen → holdsValue s.kbuf k := by
  simpa [inputKey, holdsValue] using Memory.readRegion_isSome s.kbuf 0 s.klen

/-- A command the host may issue completes (R165). -/
theorem exec_of_permitted {i : Instr} {s : State} (h : commandPermitted i s) : ∃ t, exec i s = .next t := by
  obtain ⟨hstream, hkey, hfit⟩ := h
  have hbits : ∃ bits, readsStream i = true → inputStream s = some bits := by
    by_cases hi : readsStream i = true
    · obtain ⟨bits, hbits⟩ := (inputStream_isSome_iff s).mpr (hstream hi)
      exact ⟨bits, fun _ => hbits⟩
    · exact ⟨[], fun hi' => absurd hi' hi⟩
  have hchars : ∃ key, readsKey i = true → inputKey s = some key := by
    by_cases hi : readsKey i = true
    · obtain ⟨key, hkey⟩ := (inputKey_isSome_iff s).mpr (hkey hi)
      exact ⟨key, fun _ => hkey⟩
    · exact ⟨[], fun hi' => absurd hi' hi⟩
  obtain ⟨bits, hbits⟩ := hbits
  obtain ⟨key, hchars⟩ := hchars
  exact ⟨_, exec_eq hbits hchars hfit⟩

/-- A command that completes was one the host may issue (R165). -/
theorem permitted_of_exec {i : Instr} {s t : State} (h : exec i s = .next t) : commandPermitted i s := by
  obtain ⟨bits, key, hbits, hkey, hfit, -⟩ := exec_next_result h
  exact ⟨fun hi => (inputStream_isSome_iff s).mp ⟨bits, hbits hi⟩,
    fun hi => (inputKey_isSome_iff s).mp ⟨key, hkey hi⟩, hfit⟩

/-- Which refusal a command the host may not issue gets: an unreadable operand comes before an output that does not
fit. -/
theorem exec_of_not_permitted {i : Instr} {s : State} (h : ¬ commandPermitted i s) :
    exec i s = .refused .operandCellHoldsNoValue ∨
      (i = .enc ∧ s.params.nMax < encodedLength s.ilen ∧ exec i s = .refused .encodeOutputDoesNotFit) := by
  by_cases hs : readsStream i = true ∧ inputStream s = none
  · exact .inl (exec_stream_unreadable hs.1 hs.2)
  by_cases hk : readsKey i = true ∧ inputKey s = none
  · exact .inl (exec_key_unreadable hk.1 hk.2)
  have hstream : readsStream i = true → ∃ bits, inputStream s = some bits :=
    fun hi => Option.ne_none_iff_exists'.mp fun hnone => hs ⟨hi, hnone⟩
  have hkey : readsKey i = true → ∃ key, inputKey s = some key :=
    fun hi => Option.ne_none_iff_exists'.mp fun hnone => hk ⟨hi, hnone⟩
  have hunfit : ¬ (i = .enc → encodedLength s.ilen ≤ s.params.nMax) := fun hfit =>
    h ⟨fun hi => (inputStream_isSome_iff s).mp (hstream hi), fun hi => (inputKey_isSome_iff s).mp (hkey hi), hfit⟩
  obtain ⟨rfl, hlong⟩ := Classical.not_imp.mp hunfit
  obtain ⟨bits, hbits⟩ := hstream rfl
  exact .inr ⟨rfl, by omega, exec_enc_unfit hbits (by omega)⟩

/-- Settles O20: the contract is what a command needs to find its result, and what is missing names the refusal. -/
theorem commandRefusedOnlyOnViolation : Obligations.CommandRefusedOnlyOnViolation :=
  fun _ _ => ⟨⟨fun ⟨_, h⟩ => permitted_of_exec h, exec_of_permitted⟩, exec_of_not_permitted⟩

end Sys2Proof.Machine
end

section
/-! Proofs of the statements about the host's accesses (10_state.md R13 to R24; 20_memory.md R40, R41;
70_reset_and_hazards.md R160, R161, R165): which are refused, and what the others leave. -/

namespace Sys2Proof.Machine

/-! ### The width of the length registers (00_scope.md R5) -/

/-- Settles O23: a number needs one bit more than its logarithm. -/
theorem lengthWidthIsSmallest : Obligations.LengthWidthIsSmallest := by
  intro p hp
  have hpos : max p.nMax p.kMax ≠ 0 := by
    simp only [Params.legal, Bool.and_eq_true, decide_eq_true_eq] at hp
    omega
  exact ⟨Nat.lt_log2_self, fun w hw => (Nat.log2_lt hpos).mpr hw⟩

/-! ### Accesses that complete -/

/-- The host hears the value of a register it reads (R13). -/
theorem performAccess_readRegister {s : State} {n v : Nat} (h : readRegister s n = some v) :
    performAccess (.readRegister n) s = .next (s.hear v) := by
  simp [performAccess, hostReadRegister, h]

/-- A value that fits its register is written (R13). -/
theorem performAccess_writeRegister {s : State} {n v w : Nat} (hw : registerWidth s.params n = some w)
    (hv : v < 2 ^ w) : performAccess (.writeRegister n v) s = writeFitting n v s := by
  simp [performAccess, hostWriteRegister, hw, Nat.not_le.mpr hv]

/-- The host writes a legal `ILEN` (R21). -/
theorem performAccess_writeIlen {s : State} {v : Nat} (hv : v < 2 ^ lenW s.params) (hcap : v ≤ s.params.nMax) :
    performAccess (.writeRegister 2 v) s = .next (s.setIlen v) := by
  rw [performAccess_writeRegister rfl hv, writeFitting, if_neg (by omega)]

/-- The host writes a legal `KLEN` (R22). -/
theorem performAccess_writeKlen {s : State} {v : Nat} (hv : v < 2 ^ lenW s.params) (hcap : v ≤ s.params.kMax) :
    performAccess (.writeRegister 3 v) s = .next (s.setKlen v) := by
  rw [performAccess_writeRegister rfl hv, writeFitting, if_neg (by omega)]

/-- The host writes `RATE` (R24). -/
theorem performAccess_writeRate (s : State) (r : Rate) :
    performAccess (.writeRegister 5 r.toNat) s = .next (s.setRate r) := by
  rw [performAccess_writeRegister rfl r.isLt, writeFitting, BitVec.ofNat_toNat, BitVec.setWidth_eq]

/-- The host hears the symbol in a cell it reads (R41). -/
theorem performAccess_readCell {s : State} {b : Buffer} {i : Nat} {v : Sym} (hi : i < capacity s.params b)
    (hv : Memory.read (s.buffer b) i = some v) : performAccess (.readCell b i) s = .next (s.hear v.toNat) := by
  simp [performAccess, hostReadCell, Nat.not_le.mpr hi, hv]

/-- The host writes a cell of `IBUF` (R41). -/
theorem performAccess_writeIbuf {s : State} {i : Nat} (v : Sym) (hi : i < s.params.nMax) :
    performAccess (.writeCell .ibuf i v) s = .next (s.writeIbuf i v) := by
  simp [performAccess, hostWriteCell, capacity, Nat.not_le.mpr hi]

/-- The host writes a cell of `KBUF` (R41). -/
theorem performAccess_writeKbuf {s : State} {i : Nat} (v : Sym) (hi : i < s.params.kMax) :
    performAccess (.writeCell .kbuf i v) s = .next (s.writeKbuf i v) := by
  simp [performAccess, hostWriteCell, capacity, Nat.not_le.mpr hi]

/-- A write of a cell of `OBUF` is ignored (R27). -/
theorem performAccess_writeObuf {s : State} {i : Nat} (v : Sym) (hi : i < s.params.nMax) :
    performAccess (.writeCell .obuf i v) s = .next s := by
  simp [performAccess, hostWriteCell, capacity, Nat.not_le.mpr hi]

/-! ### Accesses that are refused (R165) -/

/-- A number above 5 names no register (R13). -/
theorem registerWidth_eq_none_iff (p : Params) (n : Nat) : registerWidth p n = none ↔ 5 < n := by
  match n with
  | 0 | 1 | 2 | 3 | 4 | 5 => simp [registerWidth]
  | n + 6 => simp [registerWidth]

theorem readRegister_eq_none_iff (s : State) (n : Nat) : readRegister s n = none ↔ 5 < n := by
  rw [Option.eq_none_iff_forall_ne_some, ← Nat.not_le, ← readRegister_isSome s]
  simp

theorem performAccess_readRegister_refused {s : State} {n : Nat} (h : 5 < n) :
    performAccess (.readRegister n) s = .refused .noSuchRegister := by
  simp [performAccess, hostReadRegister, (readRegister_eq_none_iff s n).mpr h]

theorem performAccess_writeRegister_refused {s : State} {n : Nat} (v : Nat) (h : 5 < n) :
    performAccess (.writeRegister n v) s = .refused .noSuchRegister := by
  simp [performAccess, hostWriteRegister, (registerWidth_eq_none_iff s.params n).mpr h]

theorem performAccess_writeRegister_tooWide {s : State} {n v w : Nat} (hw : registerWidth s.params n = some w)
    (hv : 2 ^ w ≤ v) : performAccess (.writeRegister n v) s = .refused .valueWiderThanRegister :=
  hostWriteRegister_tooWide hw hv

theorem performAccess_readCell_noSuchCell {s : State} {b : Buffer} {i : Nat} (h : capacity s.params b ≤ i) :
    performAccess (.readCell b i) s = .refused .noSuchCell := by
  simp [performAccess, hostReadCell, h]

theorem performAccess_writeCell_noSuchCell {s : State} {b : Buffer} {i : Nat} (v : Sym) (h : capacity s.params b ≤ i) :
    performAccess (.writeCell b i v) s = .refused .noSuchCell := by
  simp [performAccess, hostWriteCell, h]

theorem performAccess_readCell_noValue {s : State} {b : Buffer} {i : Nat} (hi : i < capacity s.params b)
    (h : ¬ holdsValue (s.buffer b) i) : performAccess (.readCell b i) s = .refused .cellHoldsNoValue := by
  have hnone : Memory.read (s.buffer b) i = none := Option.eq_none_iff_forall_ne_some.mpr fun v hv => h ⟨v, hv⟩
  simp [performAccess, hostReadCell, Nat.not_le.mpr hi, hnone]

theorem performAccess_writeIlen_refused {s : State} {v : Nat} (hv : v < 2 ^ lenW s.params) (h : s.params.nMax < v) :
    performAccess (.writeRegister 2 v) s = .refused .lengthAboveCapacity := by
  rw [performAccess_writeRegister rfl hv, writeFitting, if_pos h]

theorem performAccess_writeKlen_refused {s : State} {v : Nat} (hv : v < 2 ^ lenW s.params) (h : s.params.kMax < v) :
    performAccess (.writeRegister 3 v) s = .refused .lengthAboveCapacity := by
  rw [performAccess_writeRegister rfl hv, writeFitting, if_pos h]

/-- Settles O22: each clause is one kind of refused access. -/
theorem violationsRefusedByName : Obligations.ViolationsRefusedByName := by
  intro s
  refine ⟨fun v => performAccess_writeIlen_refused, fun v => performAccess_writeKlen_refused,
    fun n v h => ⟨performAccess_readRegister_refused h, performAccess_writeRegister_refused v h⟩,
    fun b i v h => ⟨performAccess_readCell_noSuchCell h, performAccess_writeCell_noSuchCell v h⟩,
    fun b i => performAccess_readCell_noValue, fun v => performAccess_writeRegister_tooWide (n := 5) rfl, ?lengths,
    ?bytes⟩
  case lengths =>
    intro n v hn hv
    simp only [List.mem_cons, List.not_mem_nil, or_false] at hn
    rcases hn with rfl | rfl | rfl <;> exact performAccess_writeRegister_tooWide rfl hv
  case bytes =>
    intro n v hn hv
    simp only [List.mem_cons, List.not_mem_nil, or_false] at hn
    rcases hn with rfl | rfl <;> exact performAccess_writeRegister_tooWide (w := 8) rfl hv

/-! ### Registers and cells -/

/-- Settles O24: each register is read and written through the one case of R13 that is its own. -/
theorem registerAccesses : Obligations.RegisterAccesses := by
  intro s
  refine ⟨fun n v h => performAccess_readRegister ?read, fun v => performAccess_writeIlen,
    fun v => performAccess_writeKlen, performAccess_writeRate s,
    fun v hv => performAccess_writeRegister (w := 8) rfl hv, fun v hv => performAccess_writeRegister rfl hv⟩
  case read =>
    simp only [List.mem_cons, List.not_mem_nil, or_false, Prod.mk.injEq] at h
    rcases h with h | h | h | h | h | h <;> obtain ⟨rfl, rfl⟩ := h <;> rfl

/-- Settles O25: the byte is stored before its command runs, and no command writes `CMD`. -/
theorem commandReadsBack : Obligations.CommandReadsBack := by
  intro s t w h
  rw [performAccess_writeCmd] at h
  have hcmd : t.cmd = w := (exec_sameOperands h).cmd
  have hread : readRegister t 0 = some w.toNat := hcmd ▸ rfl
  exact performAccess_readRegister hread

/-- Settles O26: what a cell reads as after a write, and that a write is a write of one buffer. -/
theorem cellAccesses : Obligations.CellAccesses := by
  refine ⟨fun s i v hi => ?ibuf, fun s i v hi => ?kbuf, fun s i v => performAccess_writeObuf v,
    fun s b i v => performAccess_readCell⟩
  case ibuf =>
    exact ⟨_, performAccess_writeIbuf v hi, performAccess_readCell hi (Memory.read_write_same s.ibuf i v),
      fun j hj => Memory.read_write_other s.ibuf v hj, rfl⟩
  case kbuf =>
    exact ⟨_, performAccess_writeKbuf v hi, performAccess_readCell hi (Memory.read_write_same s.kbuf i v),
      fun j hj => Memory.read_write_other s.kbuf v hj, rfl⟩

/-! ### Reset (R160, R161) -/

/-- Only SIM asks for draws, and for no more than `ILEN` (R122, R153). -/
theorem exec_asked {i : Instr} {s t : State} (h : exec i s = .next t) :
    t.rng.asked - s.rng.asked ≤ s.ilen ∧ (i ≠ .sim → t.rng.asked - s.rng.asked = 0) := by
  rw [drawsPerCommand i s t h]
  split
  next hsim => exact ⟨by simp [sourceAfter], fun hi => absurd hsim.1 hi⟩
  next => simp

/-- Settles O28: a command the host may issue completes, so its draws are counted, and the reset leaves no more of it
than them. -/
theorem resetAbandonsTheCommand : Obligations.ResetAbandonsTheCommand := by
  refine ⟨fun s => rfl, fun s w d hperm => ?_⟩
  obtain ⟨t, ht⟩ := exec_of_permitted (s := s.setCmd w) hperm
  obtain ⟨hle, hzero⟩ := exec_asked ht
  simp only [State.setCmd_rng, State.setCmd_ilen] at hle hzero
  refine ⟨min d (t.rng.asked - s.rng.asked), Nat.min_le_left _ _, (Nat.min_le_right _ _).trans hle,
    fun hi => by rw [hzero hi, Nat.min_zero], ?_⟩
  have hrun : runCommand w s = .next t := ht
  simp only [performAccess, resetDuringCommand, hrun, resetCore_eq]
  rfl

/-! ### Going on (R165) -/

/-- CORE raises no fault, so what does not go on is refused (log 12). -/
theorem exists_refused_of_not_next {o : Host.Outcome State Fault Refusal} (h : ¬ ∃ t, o = .next t) :
    ∃ r, o = .refused r := by
  cases o with
  | next t => exact absurd ⟨t, rfl⟩ h
  | fault f => cases f
  | refused r => exact ⟨r, rfl⟩

/-- A byte whose command completes was one the host may write to `CMD` (R165). -/
theorem permitted_of_runCommand {w : BitVec 8} {s t : State} (h : runCommand w s = .next t) :
    commandPermitted (decodeByte w) s := permitted_of_exec (s := s.setCmd w) h

/-- A register write that goes on fits its register (R165 (f)). -/
theorem fits_of_writeRegister_next {n v : Nat} {s t : State} (h : performAccess (.writeRegister n v) s = .next t) :
    ∃ w, registerWidth s.params n = some w ∧ v < 2 ^ w := by
  cases hw : registerWidth s.params n with
  | none =>
    rw [performAccess_writeRegister_refused v ((registerWidth_eq_none_iff _ n).mp hw)] at h
    cases h
  | some w =>
    refine ⟨w, rfl, Nat.lt_of_not_le fun hv => ?_⟩
    rw [performAccess_writeRegister_tooWide hw hv] at h
    cases h

/-- A write the contract allows goes on, register by register (R13). -/
theorem writeRegister_of_permitted {n v : Nat} {s : State} (h : accessPermitted (.writeRegister n v) s) :
    ∃ t, performAccess (.writeRegister n v) s = .next t := by
  obtain ⟨⟨w, hw, hv⟩, hilen, hklen, hcmd⟩ := h
  rw [performAccess_writeRegister hw hv]
  match n with
  | 0 => exact exec_of_permitted (s := s.setCmd (BitVec.ofNat 8 v)) (hcmd rfl)
  | 1 | 4 | 5 => exact ⟨_, rfl⟩
  | 2 => exact ⟨_, if_neg (Nat.not_lt.mpr (hilen rfl))⟩
  | 3 => exact ⟨_, if_neg (Nat.not_lt.mpr (hklen rfl))⟩
  | n + 6 => simp [registerWidth] at hw

/-- A write that goes on keeps the contract: what it does says which register it wrote (R13). -/
theorem permitted_of_writeRegister {n v : Nat} {s t : State} (h : performAccess (.writeRegister n v) s = .next t) :
    accessPermitted (.writeRegister n v) s := by
  refine ⟨fits_of_writeRegister_next h, ?_⟩
  rcases hostWriteRegister_next h with ⟨rfl, -, hrun⟩ | ⟨rfl, hcap, -⟩ | ⟨rfl, hcap, -⟩ | ⟨rfl, -⟩ | ⟨rfl | rfl, -⟩
  · have hperm : commandPermitted (decodeByte (BitVec.ofNat 8 v)) s := permitted_of_runCommand hrun
    simpa using hperm
  all_goals simp [*]

/-- An access goes on exactly when it keeps the contract (R165). -/
theorem performAccess_next_iff (a : Access) (s : State) :
    (∃ t, performAccess a s = .next t) ↔ accessPermitted a s := by
  cases a with
  | readRegister n =>
    rw [accessPermitted, ← readRegister_isSome s]
    constructor
    · rintro ⟨t, h⟩
      obtain ⟨v, hv, -⟩ := hostReadRegister_next h
      exact ⟨v, hv⟩
    · rintro ⟨v, hv⟩
      exact ⟨_, performAccess_readRegister hv⟩
  | writeRegister n v => exact ⟨fun ⟨_, h⟩ => permitted_of_writeRegister h, writeRegister_of_permitted⟩
  | readCell b i =>
    constructor
    · rintro ⟨t, h⟩
      obtain ⟨hi, v, hv, -⟩ := hostReadCell_next h
      exact ⟨hi, v, hv⟩
    · rintro ⟨hi, v, hv⟩
      exact ⟨_, performAccess_readCell hi hv⟩
  | writeCell b i v =>
    constructor
    · rintro ⟨t, h⟩
      exact (hostWriteCell_next h).1
    · intro hi
      cases b with
      | ibuf => exact ⟨_, performAccess_writeIbuf v hi⟩
      | kbuf => exact ⟨_, performAccess_writeKbuf v hi⟩
      | obuf => exact ⟨_, performAccess_writeObuf v hi⟩
  | reset => exact ⟨fun _ => trivial, fun _ => ⟨_, rfl⟩⟩
  | resetDuring w d =>
    constructor
    · rintro ⟨t, h⟩
      obtain ⟨u, hu, -⟩ := resetDuringCommand_next h
      exact permitted_of_runCommand hu
    · intro hperm
      obtain ⟨n, -, -, -, h⟩ := resetAbandonsTheCommand.2 s w d hperm
      exact ⟨_, h⟩
  | connectSource answers => exact ⟨fun _ => trivial, fun _ => ⟨_, rfl⟩⟩

/-- The output stream is readable exactly when each of its cells holds a value (R28). -/
theorem outputStream_isSome_iff (s : State) :
    (∃ out, outputStream s = some out) ↔ ∀ k, k < s.olen → holdsValue s.obuf k := by
  simpa [outputStream, holdsValue] using Memory.readRegion_isSome s.obuf 0 s.olen

/-- Only an MVO needs something of the state to be replaced: a readable output stream (R73; log 11). -/
theorem expand_isSome_iff (p : Pseudo) (s : State) :
    (∃ ops, expand p s = some ops) ↔ (p = .mvo → ∀ k, k < s.olen → holdsValue s.obuf k) := by
  rw [← outputStream_isSome_iff]
  cases p with
  | mvo => cases h : outputStream s <;> simp [expand, h]
  | ldi stream | ldk key | ldr value | rdo | rds | issue c => simp [expand]

/-- A step over a pseudo-operation goes on exactly when it can be replaced. -/
theorem step_pseudo_next_iff {s : State} {p : Pseudo} {rest : List HostOp} (h : s.host.pending = .pseudo p :: rest) :
    (∃ t, step s = .next t) ↔ ∃ ops, expand p (s.setPending rest) = some ops := by
  constructor
  · rintro ⟨t, ht⟩
    rcases step_cases ht with ⟨hp, -⟩ | ⟨a, rest', hp, -⟩ | ⟨p', rest', ops, hp, hops, -⟩ <;> rw [h] at hp <;> cases hp
    exact ⟨ops, hops⟩
  · rintro ⟨ops, hops⟩
    exact ⟨_, step_pseudo h hops⟩

/-- The machine goes on exactly when the host's next item keeps the contract (R165). -/
theorem step_next_iff (s : State) : (∃ t, step s = .next t) ↔ nextPermitted s := by
  cases hp : s.host.pending with
  | nil => simp [step_idle hp, nextPermitted, hp]
  | cons op rest =>
    cases op with
    | access a =>
      rw [step_access hp, performAccess_next_iff]
      simp only [nextPermitted, hp]
      cases a <;> exact Iff.rfl
    | pseudo p =>
      rw [step_pseudo_next_iff hp, expand_isSome_iff]
      cases p <;> simp [nextPermitted, hp]

/-- Settles O21: the contract is what a step needs to go on, and a step has no third outcome. -/
theorem stepRefusedOnlyOnViolation : Obligations.StepRefusedOnlyOnViolation :=
  fun s => ⟨(step_next_iff s).mpr, fun h => exists_refused_of_not_next fun hnext => h ((step_next_iff s).mp hnext)⟩

end Sys2Proof.Machine
end

section
/-! Proofs of the statements about the invariant of the states between two accesses (10_state.md; 20_memory.md section
6): the reset state meets it, and every kind of step keeps it. -/

namespace Sys2Proof.Machine

/-! ### Reset -/

/-- A reset of CORE meets the invariant, whatever the state before it was (R33, R161). -/
theorem stateInv_resetCore {s : State} (hparams : s.params.legal = true) : StateInv (resetCore s) := by
  have hstatus : (resetCore s).status = okStatus false false := rfl
  exact {
    params_legal := hparams
    ibuf_wf := ⟨rfl, rfl⟩
    kbuf_wf := ⟨rfl, rfl⟩
    obuf_wf := ⟨rfl, rfl⟩
    lengths_legal := ⟨Nat.zero_le _, Nat.zero_le _, Nat.zero_le _⟩
    obuf_defined := by simp [not_holdsValue_nil]
    obuf_bits := by simp
    status_legal := by rw [hstatus]; simp
    v_after_val := by rw [hstatus]; simp
    det_after_sim := by rw [hstatus]; simp
    error_state := by rw [hstatus]; simp }

/-- The capacities `State.reset` is built with are ones R5 admits. -/
theorem params_legal : Config.params.legal = true := by simp [Params.legal, Config.params]

/-- Settles O29: a reset of the machine just built changes nothing. -/
theorem resetStateMeetsInvariant : Obligations.ResetStateMeetsInvariant :=
  stateInv_resetCore (s := State.resetWith Config.params) params_legal

/-! ### Updates by the host -/

section
variable {s : State} (hs : StateInv s)
include hs

theorem StateInv.setPending (ops : List HostOp) : StateInv (s.setPending ops) := { hs with }

theorem StateInv.hear (v : Nat) : StateInv (s.hear v) := { hs with }

theorem StateInv.setSource (r : RandomSource) : StateInv (s.setSource r) := { hs with }

theorem StateInv.setRate (r : Rate) : StateInv (s.setRate r) := { hs with }

theorem StateInv.setIlen {n : Nat} (hn : n ≤ s.params.nMax) : StateInv (s.setIlen n) := by
  obtain ⟨-, hklen, holen⟩ := hs.lengths_legal
  exact { hs with lengths_legal := ⟨hn, hklen, holen⟩ }

theorem StateInv.setKlen {n : Nat} (hn : n ≤ s.params.kMax) : StateInv (s.setKlen n) := by
  obtain ⟨hilen, -, holen⟩ := hs.lengths_legal
  exact { hs with lengths_legal := ⟨hilen, hn, holen⟩ }

theorem StateInv.writeIbuf {i : Nat} (v : Sym) (hi : i < s.params.nMax) : StateInv (s.writeIbuf i v) := by
  obtain ⟨hwf, hwithin⟩ := hs.ibuf_wf
  exact { hs with ibuf_wf := ⟨Memory.wf_write i v hwf, Memory.within_write v hi hwithin⟩ }

theorem StateInv.writeKbuf {i : Nat} (v : Sym) (hi : i < s.params.kMax) : StateInv (s.writeKbuf i v) := by
  obtain ⟨hwf, hwithin⟩ := hs.kbuf_wf
  exact { hs with kbuf_wf := ⟨Memory.wf_write i v hwf, Memory.within_write v hi hwithin⟩ }

end

/-! ### A command -/

/-- The output a command leaves is in canonical form (R28, R148). -/
theorem exec_obuf_wf {i : Instr} {s t : State} (h : exec i s = .next t) : Memory.wf t.obuf = true := by
  rcases exec_next h with ⟨e, rfl⟩ | ⟨out, v, det, n, rfl⟩
  · rfl
  · exact Memory.wf_ofStream out

/-- A command that does not read its stream only reports an error (R64, R111). -/
theorem readsStream_of_commandResult_ok {i : Instr} {bits key : List Sym} {rate : Rate} {draws : List DrawValue}
    {result : List Sym × Bool × Bool × Nat} (h : commandResult i bits key rate draws = .ok result) :
    readsStream i = true := by
  cases i with
  | enc | val | strip | encrVigenere | encrCaesar | decrVigenere | decrCaesar | sim => rfl
  | encrUnreg | decrUnreg | illegalOp0 | illegalOp7 | illegalOp8 | illegalEncCid | illegalValCid | illegalStripCid
  | illegalSimCid => cases h

/-- The output of a command fits `OBUF` where its stream fits `IBUF` (R56). -/
theorem exec_obuf_fits {i : Instr} {s t : State} (h : exec i s = .next t) (hilen : s.ilen ≤ s.params.nMax) :
    t.olen ≤ s.params.nMax ∧ Memory.within s.params.nMax t.obuf = true := by
  rcases exec_next_cases h with ⟨e, rfl⟩ | ⟨bits, key, out, v, det, n, hbits, hfit, hr, rfl⟩
  · exact ⟨Nat.zero_le _, rfl⟩
  · have hlen : bits.length = s.ilen :=
      ((inputStream_eq_some s bits).mp (hbits (readsStream_of_commandResult_ok hr))).1
    have hout : out.length ≤ s.params.nMax := by
      rcases commandResult_length hr with hle | ⟨rfl, henc⟩
      · omega
      · rw [henc, hlen]
        exact hfit rfl
    exact ⟨hout, Memory.within_ofStream hout⟩

/-- VAL leaves no output (R23, R91). -/
theorem exec_val_olen {s t : State} (h : exec .val s = .next t) : t.olen = 0 := by
  rcases exec_next_cases h with ⟨e, rfl⟩ | ⟨bits, key, out, v, det, n, -, -, hr, rfl⟩
  · rfl
  · obtain ⟨-, rfl, -⟩ := valResult_eq_ok_iff.mp hr
    rfl

theorem errorCode_le (e : ErrorName) : (errorCode e).toNat ≤ 7 := by cases e <;> decide

/-- The error code a command leaves is one of R135. -/
theorem exec_errField_le {i : Instr} {s t : State} (h : exec i s = .next t) : (errField t.status).toNat ≤ 7 := by
  rcases exec_next h with ⟨e, rfl⟩ | ⟨out, v, det, n, rfl⟩
  · rw [errorCommit_status, errField_errorStatus]
    exact errorCode_le e
  · rw [State.setSource_status, successCommit_status, errField_okStatus]
    decide

/-- A byte is the byte of the command it decodes to. -/
theorem eq_encodeByte_of_decodeByte {w : BitVec 8} {i : Instr} (h : decodeByte w = i) : w = encodeByte i := by
  rw [← h, encodeByte_decodeByte]

/-- No command touches the entries of `IBUF` and `KBUF` (R32). -/
theorem exec_operandBuffers {i : Instr} {s t : State} (h : exec i s = .next t) :
    t.ibuf = s.ibuf ∧ t.kbuf = s.kbuf := by
  rcases exec_next h with ⟨e, rfl⟩ | ⟨out, v, det, n, rfl⟩ <;> exact ⟨rfl, rfl⟩

/-- An error leaves no output (R23, R147). -/
theorem exec_olen_of_error {i : Instr} {s t : State} (h : exec i s = .next t) (herr : errField t.status ≠ 0#4) :
    t.olen = 0 := by
  obtain ⟨e, rfl⟩ := eq_errorCommit_of_errField_ne h herr
  rfl

/-- A command run from a write of `CMD` keeps the invariant: it rewrites `STATUS`, `OLEN` and `OBUF` whole, and nothing
else (R32, R147, R148). -/
theorem StateInv.runCommand {s t : State} {w : BitVec 8} (hs : StateInv s) (h : runCommand w s = .next t) :
    StateInv t := by
  have hexec : exec (decodeByte w) (s.setCmd w) = .next t := h
  have hsame : SameOperands (s.setCmd w) t := exec_sameOperands hexec
  have hparams : t.params = s.params := hsame.params
  have hcmd : t.cmd = w := hsame.cmd
  obtain ⟨hibuf, hkbuf⟩ := exec_operandBuffers hexec
  obtain ⟨hilen, hklen, -⟩ := hs.lengths_legal
  obtain ⟨holen, hwithin⟩ := exec_obuf_fits hexec hilen
  obtain ⟨hval, hsim, hflags, hreserved, -⟩ := statusRewrittenWhole _ _ _ hexec
  exact {
    params_legal := hparams ▸ hs.params_legal
    ibuf_wf := by rw [hibuf, hparams]; exact hs.ibuf_wf
    kbuf_wf := by rw [hkbuf, hparams]; exact hs.kbuf_wf
    obuf_wf := ⟨exec_obuf_wf hexec, hparams ▸ hwithin⟩
    lengths_legal := by rw [hsame.ilen, hsame.klen, hparams]; exact ⟨hilen, hklen, holen⟩
    obuf_defined := exec_obuf_defined hexec
    obuf_bits := fun hne _ _ => exec_obuf_bits hexec fun hi => hne (hcmd.trans (eq_encodeByte_of_decodeByte hi))
    status_legal := ⟨hreserved, exec_errField_le hexec⟩
    v_after_val := fun hv => by
      obtain ⟨hi, herr, -⟩ := hval hv
      rw [hi] at hexec
      exact ⟨hcmd.trans (eq_encodeByte_of_decodeByte hi), herr, exec_val_olen hexec⟩
    det_after_sim := fun hd => by
      obtain ⟨hi, herr, -⟩ := hsim hd
      exact ⟨hcmd.trans (eq_encodeByte_of_decodeByte hi), herr⟩
    error_state := fun herr => by
      obtain ⟨hv, hd⟩ := hflags herr
      exact ⟨hv, hd, exec_olen_of_error hexec herr⟩ }

/-! ### One step -/

/-- A register write that goes on keeps the invariant. -/
theorem StateInv.hostWriteRegister {n v : Nat} {s t : State} (hs : StateInv s)
    (h : hostWriteRegister n v s = .next t) : StateInv t := by
  rcases hostWriteRegister_next h with ⟨-, -, hrun⟩ | ⟨-, hv, rfl⟩ | ⟨-, hv, rfl⟩ | ⟨-, -, rfl⟩ | ⟨-, rfl⟩
  · exact hs.runCommand hrun
  · exact hs.setIlen hv
  · exact hs.setKlen hv
  · exact hs.setRate _
  · exact hs

/-- A cell write that goes on keeps the invariant. -/
theorem StateInv.hostWriteCell {b : Buffer} {i : Nat} {v : Sym} {s t : State} (hs : StateInv s)
    (h : hostWriteCell b i v s = .next t) : StateInv t := by
  obtain ⟨hi, ⟨rfl, rfl⟩ | ⟨rfl, rfl⟩ | ⟨rfl, rfl⟩⟩ := hostWriteCell_next h
  · exact hs.writeIbuf v hi
  · exact hs.writeKbuf v hi
  · exact hs

/-- An access that goes on keeps the invariant. -/
theorem StateInv.performAccess {a : Access} {s t : State} (hs : StateInv s) (h : performAccess a s = .next t) :
    StateInv t := by
  cases a with
  | readRegister n =>
    obtain ⟨v, -, rfl⟩ := hostReadRegister_next h
    exact hs.hear v
  | writeRegister n v => exact hs.hostWriteRegister h
  | readCell b i =>
    obtain ⟨-, v, -, rfl⟩ := hostReadCell_next h
    exact hs.hear v.toNat
  | writeCell b i v => exact hs.hostWriteCell h
  | reset =>
    cases h
    exact stateInv_resetCore hs.params_legal
  | resetDuring w d =>
    obtain ⟨u, -, rfl⟩ := resetDuringCommand_next h
    exact (stateInv_resetCore hs.params_legal).setSource _
  | connectSource answers =>
    cases h
    exact hs.setSource _

/-- Settles O30: a step does nothing, performs an access, or only rewrites the host's list. -/
theorem stepKeepsInvariant : Obligations.StepKeepsInvariant := by
  intro s t hs h
  rcases step_cases h with ⟨-, rfl⟩ | ⟨a, rest, -, ha⟩ | ⟨p, rest, ops, -, -, rfl⟩
  · exact hs
  · exact (hs.setPending rest).performAccess ha
  · exact hs.setPending (ops ++ rest)

end Sys2Proof.Machine
end

section
/-! Proofs of the statements about ParityCodec (40_parity_codec.md): the block code (R83), what VAL and STRIP do with a
protected stream (R90, R94), and the laws that tie ENC, VAL and STRIP together (R86, R96, R97). -/

namespace Sys2Proof.Machine

/-! ### The block code (R80 to R83) -/

theorem syndromeBit_eq_zero_iff : ∀ p a b c d e : Bool,
    (p ^^ a ^^ b ^^ c ^^ d ^^ e) = false ↔ p = (a ^^ b ^^ c ^^ d ^^ e) := by decide

theorem syndromeBit_eq_zero_iff' : ∀ p a b c : Bool, (p ^^ a ^^ b ^^ c) = false ↔ p = (a ^^ b ^^ c) := by decide

/-- A word is valid exactly when each stored parity bit is the one R81 computes from the data bits. -/
theorem blockValid_iff (c : Codeword) :
    blockValid c = true ↔ c.p1 = (c.d0 ^^ c.d1 ^^ c.d3 ^^ c.d4 ^^ c.d6) ∧
      c.p2 = (c.d0 ^^ c.d2 ^^ c.d3 ^^ c.d5 ^^ c.d6) ∧ c.p4 = (c.d1 ^^ c.d2 ^^ c.d3) ∧
      c.p8 = (c.d4 ^^ c.d5 ^^ c.d6) := by
  rw [← syndromeBit_eq_zero_iff, ← syndromeBit_eq_zero_iff, ← syndromeBit_eq_zero_iff', ← syndromeBit_eq_zero_iff']
  simp only [blockValid, syndrome, beq_iff_eq, Nat.add_eq_zero_iff, Nat.mul_eq_zero, Bool.toNat_eq_zero, and_assoc,
    OfNat.ofNat_ne_zero, false_or]

/-- The words `encode_block` makes are valid (R83 (a)). -/
theorem blockValid_encodeBlock (d0 d1 d2 d3 d4 d5 d6 : Bool) :
    blockValid (encodeBlock d0 d1 d2 d3 d4 d5 d6) = true := (blockValid_iff _).mpr ⟨rfl, rfl, rfl, rfl⟩

/-- A valid word is the codeword of its data bits (R83 (a)). -/
theorem eq_encodeBlock_of_blockValid {c : Codeword} (h : blockValid c = true) :
    c = encodeBlock c.d0 c.d1 c.d2 c.d3 c.d4 c.d5 c.d6 := by
  obtain ⟨h1, h2, h4, h8⟩ := (blockValid_iff c).mp h
  cases c
  simp_all [encodeBlock]

/-- Four bits as a number, the lowest first: exclusive-or of the bits is exclusive-or of the numbers. -/
theorem fourBits_xor : ∀ a b c d a' b' c' d' : Bool,
    (a ^^ a').toNat + 2 * (b ^^ b').toNat + 4 * (c ^^ c').toNat + 8 * (d ^^ d').toNat =
      (a.toNat + 2 * b.toNat + 4 * c.toNat + 8 * d.toNat) ^^^
        (a'.toNat + 2 * b'.toNat + 4 * c'.toNat + 8 * d'.toNat) := by decide

/-- The syndrome is linear (R83 (b)). -/
theorem syndrome_xorCodeword (c e : Codeword) : syndrome (xorCodeword c e) = syndrome c ^^^ syndrome e := by
  have hcomm : Std.Commutative xor := ⟨Bool.xor_comm⟩
  simp only [syndrome, ← fourBits_xor, xorCodeword]
  congr 3 <;> ac_rfl

/-- A word with 1 at the positions that `f` picks (R80). -/
def wordAt (f : Nat → Bool) : Codeword where
  p1 := f 1
  p2 := f 2
  d0 := f 3
  p4 := f 4
  d1 := f 5
  d2 := f 6
  d3 := f 7
  p8 := f 8
  d4 := f 9
  d5 := f 10
  d6 := f 11

/-- A word is 1 at exactly the positions it lists (R83). -/
theorem eq_wordAt_onePositions (e : Codeword) : e = wordAt fun k => decide (k ∈ onePositions e) := by
  simp [wordAt, onePositions, codewordBits]

/-- A single flip's syndrome is its position (R83 (c)). -/
theorem syndrome_of_onePositions {e : Codeword} {k : Nat} (h : onePositions e = [k]) : syndrome e = k ∧ k ≠ 0 := by
  have hk : k ∈ onePositions e := h ▸ List.mem_singleton_self k
  have hrange : k ∈ List.range' 1 11 := (List.mem_filter.mp hk).1
  have hword : e = wordAt fun j => decide (j ∈ [k]) := h ▸ eq_wordAt_onePositions e
  have hflips : ∀ j ∈ List.range' 1 11, syndrome (wordAt fun i => decide (i ∈ [j])) = j ∧ j ≠ 0 := by decide
  rw [hword]
  exact hflips k hrange

/-- No codeword has weight 2: the code's distance is 3 (R83 (a), (d)). -/
theorem weight_encodeBlock_ne_two :
    ∀ d0 d1 d2 d3 d4 d5 d6 : Bool, weight (encodeBlock d0 d1 d2 d3 d4 d5 d6) ≠ 2 := by decide

/-- Every double flip has a syndrome (R83 (d)). -/
theorem syndrome_ne_zero_of_weight {e : Codeword} (h : weight e = 2) : syndrome e ≠ 0 := by
  intro hzero
  rw [eq_encodeBlock_of_blockValid (beq_iff_eq.mpr hzero)] at h
  exact weight_encodeBlock_ne_two _ _ _ _ _ _ _ h

/-- Only one word has weight 11. -/
theorem eq_ones_of_weight {e : Codeword} (h : weight e = 11) : e = wordAt fun _ => true := by
  have hones : ∀ b ∈ codewordBits e, true = b := List.count_eq_length.mp h
  obtain ⟨⟩ := e
  simp_all [codewordBits, wordAt]

/-- The complement of a word has the same syndrome (R83 (e)). -/
theorem syndrome_complement {c e : Codeword} (h : weight e = 11) : syndrome (xorCodeword c e) = syndrome c := by
  have hones : syndrome (wordAt fun _ => true) = 0 := by decide
  rw [syndrome_xorCodeword, eq_ones_of_weight h, hones, Nat.xor_zero]

/-- Settles O31: each property is the lemma above that bears its letter. -/
theorem blockCodeProperties : Obligations.BlockCodeProperties :=
  ⟨fun d0 d1 d2 d3 d4 d5 d6 => ⟨blockValid_encodeBlock d0 d1 d2 d3 d4 d5 d6, rfl⟩,
    fun _ => eq_encodeBlock_of_blockValid, syndrome_xorCodeword, fun _ _ => syndrome_of_onePositions,
    fun _ => syndrome_ne_zero_of_weight, fun _ _ => syndrome_complement⟩

/-! ### Streams of codewords (20_memory.md R43) -/

/-- The stream of `n` codewords. -/
def codewordStream (n : Nat) (f : Nat → Codeword) : List Sym :=
  (List.range n).flatMap fun g => (codewordBits (f g)).map symOf

/-- The stream of the data bits of `n` codewords (R44). -/
def dataStream (n : Nat) (f : Nat → Codeword) : List Sym :=
  (List.range n).flatMap fun g => (codewordData (f g)).map symOf

@[simp] theorem codewordStream_length (n : Nat) (f : Nat → Codeword) : (codewordStream n f).length = 11 * n :=
  flatMap_range_length _ 11 _ fun _ => rfl

@[simp] theorem dataStream_length (n : Nat) (f : Nat → Codeword) : (dataStream n f).length = 7 * n :=
  flatMap_range_length _ 7 _ fun _ => rfl

@[simp] theorem allBits_codewordStream (n : Nat) (f : Nat → Codeword) : allBits (codewordStream n f) = true := by
  simp [allBits, codewordStream, List.all_flatMap]

@[simp] theorem allBits_dataStream (n : Nat) (f : Nat → Codeword) : allBits (dataStream n f) = true := by
  simp [allBits, dataStream, List.all_flatMap]

/-- The output of `Encode` is the stream of its blocks' codewords (R84). -/
theorem encodedSymbols_eq (bits : List Sym) :
    encodedSymbols bits = codewordStream (dataBlocks bits.length) (encodedBlock bits) := rfl

theorem codewordStream_getElem? {n g o : Nat} (f : Nat → Codeword) (hg : g < n) (ho : o < 11) :
    (codewordStream n f)[11 * g + o]? = (codewordBits (f g))[o]?.map symOf := by
  rw [codewordStream, flatMap_range_getElem? (k := 11) _ (fun _ => rfl) hg ho, List.getElem?_map]

theorem dataStream_getElem? {n g j : Nat} (f : Nat → Codeword) (hg : g < n) (hj : j < 7) :
    (dataStream n f)[7 * g + j]? = (codewordData (f g))[j]?.map symOf := by
  rw [dataStream, flatMap_range_getElem? (k := 7) _ (fun _ => rfl) hg hj, List.getElem?_map]

/-- The bit at the place of a symbol made of a bit. -/
theorem codeBit_of_getElem? {prot : List Sym} {g k : Nat} {b : Bool} (h : prot[11 * g + k - 1]? = some (symOf b)) :
    codeBit prot g k = b := by
  simp [codeBit, h]

/-- Codeword `g` of a stream of codewords (R43). -/
theorem codewordAt_codewordStream {n g : Nat} (f : Nat → Codeword) (hg : g < n) :
    codewordAt (codewordStream n f) g = f g := by
  have hbit : ∀ k b, (k, b) ∈ [(1, (f g).p1), (2, (f g).p2), (3, (f g).d0), (4, (f g).p4), (5, (f g).d1),
      (6, (f g).d2), (7, (f g).d3), (8, (f g).p8), (9, (f g).d4), (10, (f g).d5), (11, (f g).d6)] →
      codeBit (codewordStream n f) g k = b := by
    intro k b hmem
    obtain ⟨hk, hb⟩ := codewordBits_getElem? (f g) hmem
    have ho : k - 1 < 11 := (List.getElem?_eq_some_iff.mp hb).1
    refine codeBit_of_getElem? ?_
    rw [Nat.add_sub_assoc hk, codewordStream_getElem? f hg ho, hb, Option.map_some]
  simp only [List.mem_cons, List.not_mem_nil, or_false, Prod.mk.injEq] at hbit
  simp [codewordAt, hbit]

/-- The element at the place of position `o + 1` of codeword `g`: the symbol of its bit, or of 0 past the end. -/
theorem getD_eq_symOf_codeBit {prot : List Sym} (h : allBits prot = true) (g o : Nat) :
    prot.getD (11 * g + o) Config.sym0 = symOf (codeBit prot g (o + 1)) := by
  have hplace : 11 * g + (o + 1) - 1 = 11 * g + o := by omega
  rw [codeBit, hplace, List.getD_eq_getElem?_getD]
  cases hc : prot[11 * g + o]? with
  | none => rfl
  | some c => exact (symOf_bitVal (List.all_eq_true.mp h c (List.mem_of_getElem? hc))).symm

/-- An all-bit stream of whole codewords is the stream of its codewords (R43). -/
theorem eq_codewordStream {prot : List Sym} (hbits : allBits prot = true) (hlen : prot.length % 11 = 0) :
    prot = codewordStream (prot.length / 11) (codewordAt prot) := by
  refine List.ext_getElem? fun i => ?_
  rcases Nat.lt_or_ge i prot.length with hi | hi
  · have hplace : i = 11 * (i / 11) + i % 11 := (Nat.div_add_mod i 11).symm
    have hg : i / 11 < prot.length / 11 := by omega
    have ho : i % 11 < 11 := Nat.mod_lt _ (by decide)
    have hsym : prot[i]? = some (symOf (codeBit prot (i / 11) (i % 11 + 1))) := by
      rw [← getD_eq_symOf_codeBit hbits, ← hplace, List.getD_eq_getElem?_getD, List.getElem?_eq_getElem hi,
        Option.getD_some]
    have hoffsets : ∀ g o, o < 11 → (codewordBits (codewordAt prot g))[o]? = some (codeBit prot g (o + 1)) := by
      intro g o ho
      interval_cases o <;> rfl
    rw [hsym]
    conv_rhs => rw [hplace]
    rw [codewordStream_getElem? _ hg ho, hoffsets _ _ ho, Option.map_some]
  · rw [List.getElem?_eq_none hi, List.getElem?_eq_none]
    rw [codewordStream_length]
    omega

/-- `Strip` gives the data bits of the codewords (R94). -/
theorem strippedSymbols_eq {prot : List Sym} (h : allBits prot = true) :
    strippedSymbols prot = dataStream (prot.length / 11) (codewordAt prot) := by
  simp only [strippedSymbols, dataStream, dataOffsets, codewordData, codewordAt, List.map_cons, List.map_nil,
    getD_eq_symOf_codeBit h]

/-! ### VAL (R90, R91) -/

/-- Every codeword is valid exactly when its parity bits are those of R81. -/
theorem allBlocksValid_iff (prot : List Sym) :
    allBlocksValid prot = true ↔ ∀ g, g < prot.length / 11 → blockValid (codewordAt prot g) = true := by
  simp [allBlocksValid]

/-- VAL commits its verdict where its checks pass (R91). -/
theorem exec_val {s : State} {prot : List Sym} (hstream : inputStream s = some prot)
    (hchecks : protectedChecks prot = .ok ()) :
    exec .val s = .next (successCommit [] (allBlocksValid prot) false s) := by
  have hverdict := (validateStream_eq_ok_iff prot _).mpr ⟨hchecks, rfl⟩
  rw [exec_eq (key := []) (fun _ => hstream) (by simp [readsKey]) (by simp)]
  simp [commandResult, commitResult, hverdict, Except.map]

theorem okStatus_verdict (v : Bool) :
    (okStatus v false = 0x10#8 ∨ okStatus v false = 0x00#8) ∧ (okStatus v false = 0x10#8 ↔ v = true) := by
  revert v
  decide

/-- The bit at position `k` of codeword `g` of an all-bit stream: 1 exactly where the stream has a `SYM1` there
(R43). -/
theorem codeBit_eq_beq {prot : List Sym} (hbits : allBits prot = true) (g k : Nat) :
    codeBit prot g k = (prot[11 * g + k - 1]? == some 0x31#8) := by
  unfold codeBit
  cases hc : prot[11 * g + k - 1]? with
  | none => rfl
  | some c =>
    rw [Option.some_beq_some]
    exact bitVal_eq_beq (List.all_eq_true.mp hbits c (List.mem_of_getElem? hc))

/-- Settles O6: a block is valid when its four parity equations hold, and `V` is the verdict on all blocks. -/
theorem valReportsVerdict : Obligations.ValReportsVerdict := by
  intro s prot hstream hilen hbits
  have hlen : prot.length = s.ilen := ((inputStream_eq_some s prot).mp hstream).1
  have hchecks : protectedChecks prot = .ok () := (protectedChecks_ok prot).mpr ⟨hlen ▸ hilen, hbits⟩
  obtain ⟨hstatus, hverdict⟩ := okStatus_verdict (allBlocksValid prot)
  refine ⟨_, exec_val hstream hchecks, rfl, fun _ => rfl, hstatus, hverdict.trans ?_,
    sameOperands_successCommit [] (allBlocksValid prot) false s.rng s, rfl⟩
  rw [allBlocksValid_iff, hlen]
  simp only [blockValid_iff, codewordAt, codeBit_eq_beq hbits]

/-! ### STRIP (R94, R95) -/

/-- STRIP commits the data symbols where its checks pass (R95). -/
theorem exec_strip {s : State} {prot : List Sym} (hstream : inputStream s = some prot)
    (hchecks : protectedChecks prot = .ok ()) :
    exec .strip s = .next (successCommit (strippedSymbols prot) false false s) := by
  have hout := (stripStream_eq_ok_iff prot _).mpr ⟨hchecks, rfl⟩
  rw [exec_eq (key := []) (fun _ => hstream) (by simp [readsKey]) (by simp)]
  simp [commandResult, commitResult, hout, Except.map]

theorem strippedSymbols_length (prot : List Sym) : (strippedSymbols prot).length = 7 * (prot.length / 11) :=
  flatMap_range_length _ 7 _ fun _ => rfl

/-- Data symbol `j` of block `g` is the symbol at the block's data position `k` (R94). -/
theorem strippedSymbols_getElem? {prot : List Sym} {g j k : Nat} (hg : g < prot.length / 11)
    (hjk : (j, k) ∈ [(0, 3), (1, 5), (2, 6), (3, 7), (4, 9), (5, 10), (6, 11)]) :
    (strippedSymbols prot)[7 * g + j]? = prot[11 * g + k - 1]? := by
  have hposition : j < 7 ∧ 1 ≤ k ∧ k ≤ 11 ∧ dataOffsets[j]? = some (k - 1) := by
    simp only [List.mem_cons, List.not_mem_nil, or_false, Prod.mk.injEq] at hjk
    rcases hjk with h | h | h | h | h | h | h <;> obtain ⟨rfl, rfl⟩ := h <;> decide
  obtain ⟨hj, hk, hk', hoffset⟩ := hposition
  have hin : 11 * g + (k - 1) < prot.length := by omega
  rw [strippedSymbols, flatMap_range_getElem? (k := 7) _ (fun _ => rfl) hg hj, List.getElem?_map, hoffset,
    Option.map_some, Nat.add_sub_assoc hk, List.getD_eq_getElem?_getD, List.getElem?_eq_getElem hin, Option.getD_some]

/-- Settles O7: the output is the data positions of the codewords, which the input holds in `IBUF`. -/
theorem stripExtractsData : Obligations.StripExtractsData := by
  intro s prot hstream hilen hbits
  obtain ⟨hlen, hcells⟩ := (inputStream_eq_some s prot).mp hstream
  have hchecks : protectedChecks prot = .ok () := (protectedChecks_ok prot).mpr ⟨hlen ▸ hilen, hbits⟩
  have holen : (strippedSymbols prot).length = 7 * (s.ilen / 11) := hlen ▸ strippedSymbols_length prot
  refine ⟨_, exec_strip hstream hchecks, holen, rfl, fun g hg j k hjk => ?_,
    fun i hi => read_successCommit_past_olen _ _ _ s hi, sameOperands_successCommit _ _ _ s.rng s, rfl⟩
  have hk : k ≤ 11 := by
    simp only [List.mem_cons, List.not_mem_nil, or_false, Prod.mk.injEq] at hjk
    omega
  rw [successCommit_obuf, Memory.read_ofStream, strippedSymbols_getElem? (hlen ▸ hg) hjk, hcells _ (by omega)]

/-! ### ENC, VAL and STRIP together (R86, R96, R97) -/

/-- `Encode` gives whole codewords of bits. -/
theorem protectedChecks_encodedSymbols (bits : List Sym) : protectedChecks (encodedSymbols bits) = .ok () := by
  rw [protectedChecks_ok, encodedSymbols_eq]
  simp

/-- A stream of codewords is valid exactly when they are. -/
theorem allBlocksValid_codewordStream (n : Nat) (f : Nat → Codeword) :
    allBlocksValid (codewordStream n f) = true ↔ ∀ g, g < n → blockValid (f g) = true := by
  rw [allBlocksValid_iff, codewordStream_length, Nat.mul_div_cancel_left _ (by decide)]
  exact forall₂_congr fun g hg => by rw [codewordAt_codewordStream f hg]

/-- `Encode` gives valid codewords (R86 (g)). -/
theorem allBlocksValid_encodedSymbols (bits : List Sym) : allBlocksValid (encodedSymbols bits) = true :=
  (allBlocksValid_codewordStream _ _).mpr fun _ _ => blockValid_encodeBlock _ _ _ _ _ _ _

/-- The data bit `j` of block `g` of a stream's encoding is the stream's own (R80, R84). -/
theorem codewordData_encodedBlock (bits : List Sym) (g : Nat) :
    codewordData (encodedBlock bits g) = (List.range 7).map (dataBit bits g) := rfl

/-- The symbol of a data bit: the stream's, and `SYM0` past its end (R84). -/
theorem symOf_dataBit {bits : List Sym} (h : allBits bits = true) (g j : Nat) :
    symOf (dataBit bits g j) = bits[7 * g + j]?.getD 0x30#8 := by
  unfold dataBit
  cases hc : bits[7 * g + j]? with
  | none => rfl
  | some c => exact symOf_bitVal (List.all_eq_true.mp h c (List.mem_of_getElem? hc))

/-- `Strip` of an encoding gives the stream and the pad zeros (R96 (c), R97). -/
theorem strippedSymbols_encodedSymbols {bits : List Sym} (h : allBits bits = true) :
    strippedSymbols (encodedSymbols bits) =
      bits ++ List.replicate (7 * dataBlocks bits.length - bits.length) 0x30#8 := by
  have hblocks : (encodedSymbols bits).length / 11 = dataBlocks bits.length := by
    rw [encodedSymbols_length, encodedLength, Nat.mul_div_cancel_left _ (by decide)]
  have hpad : bits.length ≤ 7 * dataBlocks bits.length := by
    rw [dataBlocks]
    omega
  rw [strippedSymbols_eq (allBits_encodedSymbols bits), hblocks]
  refine List.ext_getElem? fun i => ?_
  rcases Nat.lt_or_ge i (7 * dataBlocks bits.length) with hi | hi
  · have hplace : 7 * (i / 7) + i % 7 = i := Nat.div_add_mod i 7
    have hg : i / 7 < dataBlocks bits.length := by omega
    have hj : i % 7 < 7 := Nat.mod_lt _ (by decide)
    have hleft : (dataStream (dataBlocks bits.length) (codewordAt (encodedSymbols bits)))[i]? =
        some (bits[i]?.getD 0x30#8) := by
      rw [← hplace, dataStream_getElem? _ hg hj, encodedSymbols_eq, codewordAt_codewordStream _ hg,
        codewordData_encodedBlock, List.getElem?_map, List.getElem?_range hj, Option.map_some, Option.map_some,
        symOf_dataBit h]
    rw [hleft]
    rcases Nat.lt_or_ge i bits.length with hlt | hge
    · rw [List.getElem?_append_left hlt, List.getElem?_eq_getElem hlt, Option.getD_some]
    · rw [List.getElem?_append_right hge, List.getElem?_eq_none hge, Option.getD_none,
        List.getElem?_replicate_of_lt (by omega)]
  · rw [List.getElem?_eq_none (by simpa using hi), List.getElem?_eq_none]
    simp
    omega

/-- The data bits of a stream of data bits (R43, R44). -/
theorem dataBit_dataStream {n g j : Nat} (f : Nat → Codeword) (hg : g < n) {b : Bool}
    (hb : (codewordData (f g))[j]? = some b) : dataBit (dataStream n f) g j = b := by
  have hj : j < 7 := (List.getElem?_eq_some_iff.mp hb).1
  simp [dataBit, dataStream_getElem? f hg hj, hb]

/-- The encoding of the data bits of valid codewords gives the codewords back (R97). -/
theorem encodedSymbols_dataStream {n : Nat} {f : Nat → Codeword} (hvalid : ∀ g, g < n → blockValid (f g) = true) :
    encodedSymbols (dataStream n f) = codewordStream n f := by
  have hblocks : dataBlocks (dataStream n f).length = n := by
    rw [dataStream_length, dataBlocks]
    omega
  have hblock : ∀ g, g < n → encodedBlock (dataStream n f) g = f g := by
    intro g hg
    have hbit {j : Nat} {b : Bool} (hb : (codewordData (f g))[j]? = some b) := dataBit_dataStream f hg hb
    rw [eq_encodeBlock_of_blockValid (hvalid g hg), encodedBlock, hbit (j := 0) rfl, hbit (j := 1) rfl,
      hbit (j := 2) rfl, hbit (j := 3) rfl, hbit (j := 4) rfl, hbit (j := 5) rfl, hbit (j := 6) rfl]
  rw [encodedSymbols_eq, hblocks, codewordStream, codewordStream]
  exact List.flatMap_congr fun g hg => by rw [hblock g (List.mem_range.mp hg)]

/-- Settles O33: an encoding is a stream of valid codewords with the stream's data bits, and a valid stream is the
encoding of its data bits. -/
theorem encodeValidateStripLaws : Obligations.EncodeValidateStripLaws := by
  refine ⟨fun b hne hbits => ⟨encodedSymbols b, ?encode, ?validate, encodedSymbols_length b, ?strip⟩,
    fun p hne hbits hlen hvalid => ⟨strippedSymbols p, ?stripBack, ?encodeBack⟩⟩
  case encode => exact encodeStream_eq_ok (List.length_pos_iff.mpr hne).ne' hbits
  case validate =>
    rw [validateStream_eq_ok_iff, allBlocksValid_encodedSymbols]
    exact ⟨protectedChecks_encodedSymbols b, rfl⟩
  case strip =>
    rw [stripStream_eq_ok_iff, strippedSymbols_encodedSymbols hbits]
    exact ⟨protectedChecks_encodedSymbols b, rfl⟩
  case stripBack => exact (stripStream_eq_ok_iff p _).mpr ⟨(protectedChecks_ok p).mpr ⟨hlen, hbits⟩, rfl⟩
  case encodeBack =>
    obtain ⟨-, hverdict⟩ := (validateStream_eq_ok_iff p true).mp hvalid
    have hblocks := (allBlocksValid_iff p).mp hverdict.symm
    have hpos : 0 < p.length := List.length_pos_iff.mpr hne
    rw [encodeStream_eq_ok_iff, strippedSymbols_eq hbits, encodedSymbols_dataStream hblocks, dataStream_length]
    exact ⟨by omega, allBits_dataStream _ _, eq_codewordStream hbits hlen⟩

/-- The output of an ENC that succeeds is the encoding of its input (R85). -/
theorem exec_enc_output {s t : State} {bits out : List Sym} (hstream : inputStream s = some bits)
    (h : exec .enc s = .next t) (herr : errField t.status = 0#4) (hout : outputStream t = some out) :
    allBits bits = true ∧ out = encodedSymbols bits := by
  rcases exec_next_cases h with ⟨e, rfl⟩ | ⟨bits', key, out', v, det, n, hbits, -, hr, rfl⟩
  · exact absurd ((errField_errorStatus e).symm.trans herr) (errorCode_ne_zero e)
  · obtain rfl : bits' = bits := Option.some.inj ((hbits rfl).symm.trans hstream)
    obtain ⟨hok, -⟩ := streamResult_eq_ok_iff.mp hr
    obtain ⟨-, hall, rfl⟩ := (encodeStream_eq_ok_iff bits' out').mp hok
    rw [outputStream_setSource, outputStream_successCommit] at hout
    exact ⟨hall, (Option.some.inj hout).symm⟩

/-- Settles O34: VAL and STRIP on an encoding, which passes the checks they share. -/
theorem valAcceptsEncOutput : Obligations.ValAcceptsEncOutput := by
  intro s t u bits out hstream h herr hout hu
  obtain ⟨hbits, rfl⟩ := exec_enc_output hstream h herr hout
  have hchecks := protectedChecks_encodedSymbols bits
  refine ⟨⟨_, exec_val hu hchecks, ?_⟩, ⟨_, exec_strip hu hchecks, ?_⟩⟩
  · rw [allBlocksValid_encodedSymbols]
    rfl
  · rw [outputStream_successCommit, strippedSymbols_encodedSymbols hbits, dataBlocks]

end Sys2Proof.Machine
end

section
/-! Proof of the statement that counts the 2048 words of the block code (40_parity_codec.md R83): exclusive-or with a
word carries one syndrome's words onto another's, and the valid words are numbered by their data bits. -/

namespace Sys2Proof.Machine

open Finset in
/-- A count over a range is the size of a set. -/
theorem countP_range_eq_card (p : Nat → Bool) (n : Nat) :
    (List.range n).countP p = #{x ∈ range n | p x = true} := by
  rw [← Nat.count_eq_card_filter_range, Nat.count]
  simp

/-! ### One syndrome's words (R83 (b), (g)) -/

theorem wordOf_xor (n m : Nat) : wordOf (n ^^^ m) = xorCodeword (wordOf n) (wordOf m) := by
  simp [wordOf, xorCodeword, -Nat.testBit_zero]

theorem syndrome_lt (c : Codeword) : syndrome c < 16 := by
  have hbits : ∀ a b c d : Bool, a.toNat + 2 * b.toNat + 4 * c.toNat + 8 * d.toNat < 16 := by decide
  exact hbits _ _ _ _

/-- The word whose parity bits are the binary digits of `y` and whose data bits are 0. -/
def parityWord (y : Nat) : Nat := y % 2 + 2 * (y / 2 % 2) + 8 * (y / 4 % 2) + 128 * (y / 8 % 2)

theorem syndrome_parityWord : ∀ y, y < 16 → syndrome (wordOf (parityWord y)) = y := by decide

theorem parityWord_lt (y : Nat) : parityWord y < 2 ^ 11 := by
  rw [parityWord]
  omega

open Finset in
/-- As many words have a syndrome as have none: exclusive-or with a word of that syndrome carries one set onto the other
(R83 (b)). -/
theorem card_syndrome_eq {y : Nat} (hy : y < 16) :
    #{n ∈ range 2048 | syndrome (wordOf n) = y} = #{n ∈ range 2048 | syndrome (wordOf n) = 0} := by
  have hlt {n : Nat} (hn : n < 2048) : n ^^^ parityWord y < 2048 := Nat.xor_lt_two_pow (n := 11) hn (parityWord_lt y)
  have hsyndrome (n : Nat) : syndrome (wordOf (n ^^^ parityWord y)) = syndrome (wordOf n) ^^^ y := by
    rw [wordOf_xor, syndrome_xorCodeword, syndrome_parityWord y hy]
  have hback (n : Nat) : n ^^^ parityWord y ^^^ parityWord y = n := Nat.xor_xor_cancel_right n _
  refine card_nbij' (· ^^^ parityWord y) (· ^^^ parityWord y) ?_ ?_ (fun n _ => hback n) (fun n _ => hback n)
  · intro n hn
    obtain ⟨hn, hs⟩ := mem_filter.mp hn
    simpa [hsyndrome, hs] using hlt (mem_range.mp hn)
  · intro n hn
    obtain ⟨hn, hs⟩ := mem_filter.mp hn
    simpa [hsyndrome, hs] using hlt (mem_range.mp hn)

open Finset in
/-- The 16 syndromes share the 2048 words evenly (R83 (g)). -/
theorem card_syndrome {y : Nat} (hy : y < 16) : #{n ∈ range 2048 | syndrome (wordOf n) = y} = 128 := by
  have hsplit := card_eq_sum_card_fiberwise (s := range 2048) (t := range 16) (f := fun n => syndrome (wordOf n))
    fun n _ => mem_coe.mpr (mem_range.mpr (syndrome_lt _))
  rw [sum_congr rfl fun z hz => card_syndrome_eq (mem_range.mp hz), sum_const, card_range, card_range, smul_eq_mul,
    ← card_syndrome_eq hy] at hsplit
  omega

theorem countP_syndrome {y : Nat} (hy : y < 16) :
    ((List.range 2048).countP fun n => syndrome (wordOf n) == y) = 128 := by
  rw [countP_range_eq_card]
  simpa using card_syndrome hy

/-! ### The valid words, numbered by their data bits -/

/-- The codeword whose data bits are the binary digits of `d`. -/
def codeOf (d : Nat) : Codeword :=
  encodeBlock (d.testBit 0) (d.testBit 1) (d.testBit 2) (d.testBit 3) (d.testBit 4) (d.testBit 5) (d.testBit 6)

/-- The number of a word: position `k` is bit `k - 1`. -/
def wordNumber (c : Codeword) : Nat := Nat.ofBits fun k : Fin 11 => (codewordBits c).getD k false

/-- The number the data bits of a word make. -/
def dataNumber (c : Codeword) : Nat := Nat.ofBits fun j : Fin 7 => (codewordData c).getD j false

theorem wordNumber_lt (c : Codeword) : wordNumber c < 2048 := Nat.ofBits_lt_two_pow _

theorem dataNumber_lt (c : Codeword) : dataNumber c < 128 := Nat.ofBits_lt_two_pow _

theorem wordOf_wordNumber (c : Codeword) : wordOf (wordNumber c) = c := by
  simp [wordOf, wordNumber, codewordBits, -Nat.testBit_zero]

theorem wordNumber_wordOf {n : Nat} (h : n < 2048) : wordNumber (wordOf n) = n := by
  have hbits : (fun k : Fin 11 => (codewordBits (wordOf n)).getD k false) = fun k : Fin 11 => n.testBit k := by
    funext k
    fin_cases k <;> rfl
  rw [wordNumber, hbits, Nat.ofBits_testBit]
  exact Nat.mod_eq_of_lt h

theorem dataNumber_codeOf {d : Nat} (h : d < 128) : dataNumber (codeOf d) = d := by
  have hbits : (fun j : Fin 7 => (codewordData (codeOf d)).getD j false) = fun j : Fin 7 => d.testBit j := by
    funext j
    fin_cases j <;> rfl
  rw [dataNumber, hbits, Nat.ofBits_testBit]
  exact Nat.mod_eq_of_lt h

theorem codeOf_dataNumber {c : Codeword} (h : blockValid c = true) : codeOf (dataNumber c) = c := by
  conv_rhs => rw [eq_encodeBlock_of_blockValid h]
  simp [codeOf, dataNumber, codewordData, -Nat.testBit_zero]

theorem blockValid_codeOf (d : Nat) : blockValid (codeOf d) = true := blockValid_encodeBlock _ _ _ _ _ _ _

open Finset in
/-- Valid words with a property are counted by their data bits. -/
theorem countP_valid (q : Codeword → Bool) :
    ((List.range 2048).countP fun n => blockValid (wordOf n) && q (wordOf n)) =
      (List.range 128).countP fun d => q (codeOf d) := by
  rw [countP_range_eq_card, countP_range_eq_card]
  refine card_nbij' (fun n => dataNumber (wordOf n)) (fun d => wordNumber (codeOf d)) ?_ ?_ ?_ ?_
  · intro n hn
    obtain ⟨-, hn⟩ := mem_filter.mp hn
    obtain ⟨hvalid, hq⟩ := Bool.and_eq_true_iff.mp hn
    simpa [codeOf_dataNumber hvalid, hq] using dataNumber_lt _
  · intro d hd
    obtain ⟨-, hq⟩ := mem_filter.mp hd
    simpa [wordOf_wordNumber, blockValid_codeOf, hq] using wordNumber_lt _
  · intro n hn
    obtain ⟨hn, hvalid⟩ := mem_filter.mp hn
    dsimp only
    rw [codeOf_dataNumber (Bool.and_eq_true_iff.mp hvalid).1, wordNumber_wordOf (mem_range.mp hn)]
  · intro d hd
    dsimp only
    rw [wordOf_wordNumber, dataNumber_codeOf (mem_range.mp (mem_filter.mp hd).1)]

/-- How many codewords there are of each weight (R83 (a), (f)). -/
theorem weights_codeOf :
    ((List.range 12).map fun w => (List.range 128).countP fun d => weight (codeOf d) == w) =
      [1, 0, 0, 13, 26, 24, 24, 26, 13, 0, 0, 1] := by
  decide

/-- The undetected three-bit patterns (R83 (h)). -/
theorem threeBitPatterns :
    (((List.range 128).filter fun d => weight (codeOf d) == 3).map fun d => onePositions (codeOf d)).Perm
      [[1, 2, 3], [1, 4, 5], [1, 6, 7], [1, 8, 9], [1, 10, 11], [2, 4, 6], [2, 5, 7], [2, 8, 10], [2, 9, 11],
        [3, 4, 7], [3, 5, 6], [3, 8, 11], [3, 9, 10]] := by
  decide

/-- The valid words with a property are the codewords with it. -/
theorem mem_validWords_iff (q : Codeword → Bool) {α : Type} (f : Codeword → α) (p : α) :
    p ∈ ((List.range 2048).filter fun n => blockValid (wordOf n) && q (wordOf n)).map (fun n => f (wordOf n)) ↔
      p ∈ ((List.range 128).filter fun d => q (codeOf d)).map fun d => f (codeOf d) := by
  simp only [List.mem_map, List.mem_filter, List.mem_range, Bool.and_eq_true]
  constructor
  · rintro ⟨n, ⟨-, hvalid, hq⟩, rfl⟩
    refine ⟨dataNumber (wordOf n), ⟨dataNumber_lt _, ?_⟩, ?_⟩ <;> rw [codeOf_dataNumber hvalid]
    exact hq
  · rintro ⟨d, ⟨-, hq⟩, rfl⟩
    refine ⟨wordNumber (codeOf d), ⟨wordNumber_lt _, ?_⟩, ?_⟩ <;> rw [wordOf_wordNumber]
    exact ⟨blockValid_codeOf d, hq⟩

/-- Settles O32: the syndromes by symmetry, the weights and the patterns by the 128 codewords. -/
theorem blockCodeEnumeration : Obligations.BlockCodeEnumeration := by
  refine ⟨countP_syndrome (by decide), ?weights, ?syndromes, fun p => ?patterns⟩
  case weights =>
    rw [← weights_codeOf]
    exact List.map_congr_left fun w _ => countP_valid fun c => weight c == w
  case syndromes =>
    refine List.eq_replicate_iff.mpr ⟨by simp, fun x hx => ?_⟩
    obtain ⟨y, hy, rfl⟩ := List.mem_map.mp hx
    exact countP_syndrome (List.mem_range.mp hy)
  case patterns =>
    rw [← threeBitPatterns.mem_iff]
    exact mem_validWords_iff (fun c => weight c == 3) onePositions p

end Sys2Proof.Machine
end

section
/-! Proofs of the statements about the two ciphers on their operands (41_stream_cipher.md R104, R108, R110, R113;
30_encoding.md R68). -/

namespace Sys2Proof.Machine

/-! ### The key as an integer (R68) -/

/-- The parity of a numeral's magnitude is that of its last digit's code. -/
theorem magnitude_mod_two {digits : List Sym} {last : Sym} (hlast : digits.getLast? = some last)
    (hdigits : ∀ c, c ∈ digits → 0x30 ≤ c.toNat ∧ c.toNat ≤ 0x39) :
    digits.foldl (fun n c => 10 * n + (c.toNat - 0x30)) 0 % 2 = last.toNat % 2 := by
  obtain ⟨init, rfl⟩ := List.getLast?_eq_some_iff.mp hlast
  obtain ⟨hlow, -⟩ := hdigits last (by simp)
  rw [List.foldl_append, List.foldl_cons, List.foldl_nil]
  omega

/-- A sign does not change the parity of an integer. -/
theorem numeralValue_odd_iff {digits : List Sym} {last : Sym} (sign : List Sym) (hlast : digits.getLast? = some last)
    (hdigits : ∀ c, c ∈ digits → 0x30 ≤ c.toNat ∧ c.toNat ≤ 0x39) :
    numeralValue sign digits % 2 = 1 ↔ last.getLsbD 0 = true := by
  have hparity := magnitude_mod_two hlast hdigits
  have hbit : last.getLsbD 0 = true ↔ last.toNat % 2 = 1 := by simp [BitVec.getLsbD]
  rw [hbit, ← hparity]
  simp only [numeralValue]
  split <;> omega

/-- Taking the sign off a numeral leaves its digits. -/
theorem stripSign_numeral {key sign digits : List Sym} (h : IsNumeral key sign digits) : stripSign key = digits := by
  obtain ⟨rfl, hsign, hne, hdigits⟩ := h
  rcases hsign with rfl | rfl | rfl
  · cases digits with
    | nil => rfl
    | cons c cs =>
      obtain ⟨hlow, -⟩ := hdigits c (List.mem_cons_self ..)
      have hdigit : ¬ (c = 0x2B#8 ∨ c = 0x2D#8) := by
        rintro (rfl | rfl) <;> simp at hlow
      exact if_neg hdigit
  · rfl
  · rfl

/-- The shift of a numeral is the parity of its integer (R68). -/
theorem parseShift_numeral {key sign digits : List Sym} (h : IsNumeral key sign digits) :
    parseShift key = .ok (decide (numeralValue sign digits % 2 = 1)) := by
  have hstrip := stripSign_numeral h
  obtain ⟨-, -, hne, hdigits⟩ := h
  have hlast : digits.getLast? = some (digits.getLast hne) := List.getLast?_eq_some_getLast hne
  have hall : digits.all isDigit = true := List.all_eq_true.mpr fun c hc => (isDigit_iff c).mpr (hdigits c hc)
  simp only [parseShift, hstrip, hlast, hall, if_true, numeralValue_odd_iff sign hlast hdigits, Bool.decide_eq_true]

theorem numeral_ne_nil {key sign digits : List Sym} (h : IsNumeral key sign digits) : key ≠ [] := by
  obtain ⟨rfl, -, hne, -⟩ := h
  exact List.append_ne_nil_of_right_ne_nil sign hne

/-! ### The CAESAR commands (R108 to R110) -/

/-- Both CAESAR commands commit the stream exclusive-ored with the shift, where the checks pass and the key parses. -/
theorem exec_caesar {i : Instr} (hi : i ∈ [Instr.encrCaesar, Instr.decrCaesar]) {s : State} {bits key : List Sym}
    {shift : Bool} (hstream : inputStream s = some bits) (hkey : inputKey s = some key)
    (hchecks : cipherChecks bits key = .ok ()) (hshift : parseShift key = .ok shift) :
    exec i s = .next (successCommit (xorFrom [shift] 0 bits) false false s) := by
  have henc := (bitShiftEnc_eq_ok bits key _).mpr ⟨hchecks, shift, hshift, rfl⟩
  have hdec := (bitShiftDec_eq_ok bits key _).mpr ⟨hchecks, shift, hshift, rfl⟩
  simp only [List.mem_cons, List.not_mem_nil, or_false] at hi
  rcases hi with rfl | rfl <;>
    rw [exec_eq (fun _ => hstream) (fun _ => hkey) (by simp)] <;>
    simp [commandResult, commitResult, henc, hdec, Except.map]

/-- Position `p` of the shifted stream (R108). -/
theorem xorFrom_singleton_getElem? {bits : List Sym} (shift : Bool) (hbits : allBits bits = true) {p : Nat}
    (hp : p < bits.length) :
    (xorFrom [shift] 0 bits)[p]? = some (if (bits[p]? == some 0x31#8) ^^ shift then 0x31#8 else 0x30#8) := by
  have hbit : isBit bits[p] = true := List.all_eq_true.mp hbits _ (List.getElem_mem hp)
  rw [xorFrom_singleton, List.getElem?_map, List.getElem?_eq_getElem hp, Option.map_some, bitVal_eq_beq hbit,
    symOf_eq_ite, Option.some_beq_some]

/-- Settles O9: both commands commit the stream exclusive-ored with the parity of the key's integer. -/
theorem caesarShiftsByKeyParity : Obligations.CaesarShiftsByKeyParity := by
  intro i hi s bits key sign digits hstream hkey hilen hbits hnumeral
  have hlen : bits.length = s.ilen := ((inputStream_eq_some s bits).mp hstream).1
  have hkeyLen : key.length ≠ 0 := (List.length_pos_iff.mpr (numeral_ne_nil hnumeral)).ne'
  have hchecks : cipherChecks bits key = .ok () := (cipherChecks_ok bits key).mpr ⟨hlen ▸ hilen, hkeyLen, hbits⟩
  refine ⟨_, exec_caesar hi hstream hkey hchecks (parseShift_numeral hnumeral), by simp [hlen], rfl, fun p hp => ?_,
    fun j hj => read_successCommit_past_olen _ _ _ s hj, sameOperands_successCommit _ _ _ s.rng s, rfl⟩
  rw [successCommit_obuf, Memory.read_ofStream, xorFrom_singleton_getElem? _ hbits (hlen ▸ hp)]

/-! ### DECR after ENCR (R104, R110) -/

/-- A cipher command that succeeds found its operands, and commits what its function makes of them. -/
theorem runCipher_success {f : List Sym → List Sym → Except ErrorName (List Sym)} {s t : State}
    (h : runCipher f s = .next t) (herr : errField t.status = 0#4) :
    ∃ bits key out, inputStream s = some bits ∧ inputKey s = some key ∧ f bits key = .ok out ∧
      t = successCommit out false false s := by
  obtain ⟨bits, hbits, h⟩ := withStream_next h
  obtain ⟨key, hkey, h⟩ := withKey_next h
  obtain rfl := Host.Outcome.next.inj h
  rcases commitStream_cases (f bits key) s with ⟨out, hout, hcommit⟩ | ⟨e, -, hcommit⟩
  · exact ⟨bits, key, out, hbits, hkey, hout, hcommit⟩
  · rw [hcommit, errorCommit_status, errField_errorStatus] at herr
    exact absurd herr (errorCode_ne_zero e)

/-- A cipher command whose function succeeds on its operands commits the function's output. -/
theorem runCipher_of_ok {f : List Sym → List Sym → Except ErrorName (List Sym)} {s : State} {bits key out : List Sym}
    (hbits : inputStream s = some bits) (hkey : inputKey s = some key) (hout : f bits key = .ok out) :
    runCipher f s = .next (successCommit out false false s) := by
  rw [runCipher, withStream_of_some hbits, withKey_of_some hkey, hout, commitStream]

/-- The decrypt command of a cipher that inverts, on the output and the key of its encrypt command (R104 (a)). -/
theorem decrypt_after_encrypt {c : CipherPair}
    (hinv : ∀ b k e : List Sym, c.encrypt b k = .ok e → c.decrypt e k = .ok b) {s t u : State}
    (h : runCipher c.encrypt s = .next t) (herr : errField t.status = 0#4) (hstream : inputStream u = outputStream t)
    (hkey : inputKey u = inputKey s) :
    ∃ v, runCipher c.decrypt u = .next v ∧ v.status = 0x00#8 ∧ outputStream v = inputStream s := by
  obtain ⟨bits, key, out, hbits, hkeyBits, hout, rfl⟩ := runCipher_success h herr
  rw [outputStream_successCommit] at hstream
  refine ⟨_, runCipher_of_ok hstream (hkey.trans hkeyBits) (hinv bits key out hout), rfl, ?_⟩
  rw [outputStream_successCommit, hbits]

/-- Settles O36: each pair of commands runs one registered cipher, and both ciphers invert. -/
theorem decrUndoesEncr : Obligations.DecrUndoesEncr := by
  intro e d hpair s t u h herr hstream hkey
  simp only [List.mem_cons, List.not_mem_nil, or_false, Prod.mk.injEq] at hpair
  rcases hpair with ⟨rfl, rfl⟩ | ⟨rfl, rfl⟩
  · exact decrypt_after_encrypt (c := vigenere) (fun _ _ _ => vigenere_decrypt_of_encrypt) h herr hstream hkey
  · exact decrypt_after_encrypt (c := caesar) (fun _ _ _ => caesar_decrypt_of_encrypt) h herr hstream hkey

/-! ### Exclusive-or with one repeated bit (R104 (b), R113) -/

/-- Exclusive-or with 0 keeps an all-bit stream. -/
theorem xorFrom_false {bits : List Sym} (h : allBits bits = true) : xorFrom [false] 0 bits = bits := by
  have hsym : ∀ c ∈ bits, symOf (bitVal c ^^ false) = id c := fun c hc => by
    rw [Bool.xor_false]
    exact symOf_bitVal (List.all_eq_true.mp h c hc)
  rw [xorFrom_singleton, List.map_congr_left hsym, List.map_id]

/-- Exclusive-or with 1 complements a stream. -/
theorem xorFrom_true (bits : List Sym) : xorFrom [true] 0 bits = complement bits := by
  simp [xorFrom_singleton, complement]

/-- A repeated bit is cycled as the bit alone is. -/
theorem xorFrom_replicate (n : Nat) (b : Bool) (p : Nat) (bits : List Sym) :
    xorFrom (List.replicate (n + 1) b) p bits = xorFrom [b] p bits := by
  induction bits generalizing p with
  | nil => rfl
  | cons c cs ih =>
    have hlt : p % (n + 1) < n + 1 := Nat.mod_lt _ (Nat.succ_pos n)
    simp [xorFrom, ih, Nat.mod_one, List.getD_eq_getElem?_getD, List.getElem?_replicate_of_lt hlt]

theorem keyBits_cons (c : Sym) (cs : List Sym) : keyBits (c :: cs) = charBits c ++ keyBits cs := rfl

/-- The bits of a repeated character whose own bits are all the same. -/
theorem keyBits_replicate {c : Sym} {b : Bool} (h : charBits c = List.replicate 8 b) (n : Nat) :
    keyBits (List.replicate n c) = List.replicate (8 * n) b := by
  induction n with
  | zero => rfl
  | succ n ih =>
    rw [List.replicate_succ, keyBits_cons, ih, h, List.replicate_append_replicate, Nat.mul_succ, Nat.add_comm]

/-- The xor-stream cipher with a key of one repeated character, whose bits are all the same (R104 (b)). -/
theorem xorStream_replicate {bits : List Sym} (hne : bits ≠ []) (hbits : allBits bits = true) {c : Sym} {b : Bool}
    (hc : charBits c = List.replicate 8 b) (n : Nat) :
    xorStream bits (List.replicate (n + 1) c) = .ok (xorFrom [b] 0 bits) := by
  have hlen : bits.length ≠ 0 := (List.length_pos_iff.mpr hne).ne'
  refine (xorStream_eq_ok _ _ _).mpr ⟨(cipherChecks_ok _ _).mpr ⟨hlen, by simp, hbits⟩, ?_⟩
  rw [keyBits_replicate hc, Nat.mul_succ, xorFrom_replicate]

/-- Settles O37: the key bits are all 0 or all 1. -/
theorem constantXorKeys : Obligations.ConstantXorKeys := by
  intro b n hne hbits
  have hzero := xorStream_replicate hne hbits (c := 0x00#8) (b := false) (by decide) n
  have hone := xorStream_replicate hne hbits (c := 0xFF#8) (b := true) (by decide) n
  rw [xorFrom_false hbits] at hzero
  rw [xorFrom_true] at hone
  exact ⟨hzero, hone⟩

/-! ### Complements and validation (R83 (e), R113) -/

@[simp] theorem complement_length (bits : List Sym) : (complement bits).length = bits.length := by simp [complement]

@[simp] theorem allBits_complement (bits : List Sym) : allBits (complement bits) = true := by
  simp [complement, allBits]

/-- The complement of a stream of codewords is the stream of their complements. -/
theorem complement_codewordStream (n : Nat) (f : Nat → Codeword) :
    complement (codewordStream n f) = codewordStream n fun g => xorCodeword (f g) (wordAt fun _ => true) := by
  simp [complement, codewordStream, List.map_flatMap, codewordBits, xorCodeword, wordAt]

/-- The complement of a codeword is valid when it is (R83 (e)). -/
theorem blockValid_complement (c : Codeword) : blockValid (xorCodeword c (wordAt fun _ => true)) = blockValid c := by
  rw [blockValid, blockValid, syndrome_complement (by decide)]

/-- `Validate` says of a complement what it says of the stream (R83 (e)). -/
theorem validateStream_complement {bits : List Sym} (h : allBits bits = true) :
    validateStream (complement bits) = validateStream bits := by
  by_cases hlen : bits.length % 11 = 0
  · have hverdict : allBlocksValid (complement bits) = allBlocksValid bits := by
      rw [eq_codewordStream h hlen, complement_codewordStream, Bool.eq_iff_iff, allBlocksValid_codewordStream,
        allBlocksValid_codewordStream]
      simp only [blockValid_complement]
    rw [(validateStream_eq_ok_iff bits _).mpr ⟨(protectedChecks_ok bits).mpr ⟨hlen, h⟩, rfl⟩,
      validateStream_eq_ok_iff, protectedChecks_ok]
    exact ⟨⟨by rwa [complement_length], allBits_complement bits⟩, hverdict.symm⟩
  · have hlen' : (complement bits).length % 11 ≠ 0 := by rwa [complement_length]
    simp only [validateStream, protectedChecks_of_length hlen, protectedChecks_of_length hlen']

/-- Settles O38: the bit-shift cipher keeps an all-bit stream or complements it. -/
theorem caesarKeepsVerdict : Obligations.CaesarKeepsVerdict := by
  intro b k e h
  rw [bitShiftDec_eq_bitShiftEnc, or_self, bitShiftEnc_eq_ok] at h
  obtain ⟨hchecks, shift, -, rfl⟩ := h
  obtain ⟨-, -, hbits⟩ := (cipherChecks_ok b k).mp hchecks
  cases shift with
  | false => rw [xorFrom_false hbits]
  | true => rw [xorFrom_true, validateStream_complement hbits]

end Sys2Proof.Machine
end

section
/-! Proofs of the statements about SIM that the spec derives (42_corruption_simulator.md R128 to R130, R132), and about
connecting a random source (30_encoding.md R72; 70_reset_and_hazards.md R164, R169). -/

namespace Sys2Proof.Machine

/-! ### Detection (R126) -/

/-- On whole codewords of bits `detected` is the opposite of the verdict. -/
theorem detected_of_checks {out : List Sym} (h : protectedChecks out = .ok ()) :
    detected out = !allBlocksValid out := by
  simp [detected, (validateStream_eq_ok_iff out _).mpr ⟨h, rfl⟩]

/-- A stream that fails a check of `Validate` counts as detected. -/
theorem detected_of_checks_error {out : List Sym} {e : ErrorName} (h : protectedChecks out = .error e) :
    detected out = true := by
  simp [detected, validateStream, h]

/-! ### The rates 0 and 1 (R128, R129) -/

/-- At rate 0 no draw flips (R128). -/
theorem corrupt_zero (bits : List Sym) (r : RandomSource) : (corrupt 0#17 bits r).1 = bits := by
  refine List.ext_getElem? fun i => ?_
  rw [corrupt_getElem?]
  simp [corruptSym, flips]

/-- At rate 1 every draw flips (R129). -/
theorem corrupt_one {bits : List Sym} (h : allBits bits = true) (r : RandomSource) :
    (corrupt 0x10000#17 bits r).1 = complement bits := by
  refine List.ext_getElem? fun i => ?_
  rw [corrupt_getElem?, complement, List.getElem?_map]
  refine Option.map_congr fun c hc => ?_
  have hflip : flips (drawFor r i) 0x10000#17 = true := decide_eq_true (drawFor r i).isLt
  have hbit : isBit c = true := List.all_eq_true.mp h c (List.mem_of_getElem? hc)
  simp [corruptSym, hflip, hbit]

/-- What SIM leaves when its corrupted stream is `out` (R127). -/
theorem exec_sim_output {s : State} {bits out : List Sym} (hstream : inputStream s = some bits)
    (hrate : s.rate.toNat ≤ 65536) (hout : (corrupt s.rate bits s.rng).1 = out) :
    ∃ t, exec .sim s = .next t ∧ outputStream t = some out ∧
      t.status = if validateStream out = .ok true then 0x00#8 else 0x20#8 := by
  subst hout
  refine ⟨_, exec_sim hstream hrate, ?_, okStatus_detected _⟩
  rw [outputStream_setSource, outputStream_successCommit]

/-- Settles O39: at the two rates the output is the stream or its complement, which validates as the stream does. -/
theorem simAtRateZeroAndOne : Obligations.SimAtRateZeroAndOne := by
  intro s bits hstream
  constructor
  · intro hrate
    exact exec_sim_output hstream (by rw [hrate]; decide) (by rw [hrate, corrupt_zero])
  · intro hrate hbits _
    rw [← validateStream_complement hbits]
    exact exec_sim_output hstream (by rw [hrate]; decide) (by rw [hrate, corrupt_one hbits])

/-! ### Detection by syndromes (R130) -/

/-- Symbol `i` of a stream as a bit, 0 past its end. -/
def bitAt (prot : List Sym) (i : Nat) : Bool := prot[i]?.elim false bitVal

theorem codeBit_eq_bitAt (prot : List Sym) (g k : Nat) : codeBit prot g k = bitAt prot (11 * g + k - 1) := by
  unfold codeBit bitAt
  cases prot[11 * g + k - 1]? <;> rfl

/-- Streams that differ by an exclusive-or differ by it in every codeword. -/
theorem codewordAt_xor {out a b : List Sym} (h : ∀ i, bitAt out i = (bitAt a i ^^ bitAt b i)) (g : Nat) :
    codewordAt out g = xorCodeword (codewordAt a g) (codewordAt b g) := by
  simp only [codewordAt, xorCodeword, codeBit_eq_bitAt, h]

/-- The flips of a SIM as a stream: `SYM1` where the draw is below the rate (R123, R130). -/
def flipStream (rate : Rate) (n : Nat) (r : RandomSource) : List Sym :=
  (List.range n).map fun i => if (drawFor r i).toNat < rate.toNat then 0x31#8 else 0x30#8

/-- On a stream of bits a corruption is an exclusive-or with the flips (R124). -/
theorem bitAt_corrupt {bits : List Sym} (h : allBits bits = true) (rate : Rate) (r : RandomSource) (i : Nat) :
    bitAt (corrupt rate bits r).1 i = (bitAt bits i ^^ bitAt (flipStream rate bits.length r) i) := by
  unfold bitAt
  rw [corrupt_getElem?]
  rcases Nat.lt_or_ge i bits.length with hi | hi
  · have hbit : isBit bits[i] = true := List.all_eq_true.mp h _ (List.getElem_mem hi)
    have hone : bitVal 0x31#8 = true := rfl
    have hzero : bitVal 0x30#8 = false := rfl
    by_cases hflip : (drawFor r i).toNat < rate.toNat <;>
      simp [flipStream, corruptSym, flips, hi, hbit, hflip, hone, hzero]
  · simp [flipStream, hi]

/-- A corruption of bits is made of bits. -/
theorem allBits_corrupt {bits : List Sym} (h : allBits bits = true) (rate : Rate) (r : RandomSource) :
    allBits (corrupt rate bits r).1 = true := by
  refine List.all_eq_true.mpr fun c hc => ?_
  obtain ⟨i, hi⟩ := List.mem_iff_getElem?.mp hc
  rw [corrupt_getElem?] at hi
  obtain ⟨c', hc', rfl⟩ := Option.map_eq_some_iff.mp hi
  have hbit : isBit c' = true := List.all_eq_true.mp h c' (List.mem_of_getElem? hc')
  unfold corruptSym
  split
  · exact isBit_symOf _
  · exact hbit

/-- A stream is invalid exactly when some block has a syndrome (R90). -/
theorem allBlocksValid_eq_false_iff (prot : List Sym) :
    allBlocksValid prot = false ↔ ∃ g, g < prot.length / 11 ∧ syndrome (codewordAt prot g) ≠ 0 := by
  rw [← Bool.not_eq_true, allBlocksValid_iff]
  simp [blockValid]

/-- Settles O40: the output's codewords are the input's exclusive-ored with the flips, and the syndrome is linear. -/
theorem simDetectsBySyndrome : Obligations.SimDetectsBySyndrome := by
  intro s t bits hstream hbits hilen hrate h
  have hlen : bits.length = s.ilen := ((inputStream_eq_some s bits).mp hstream).1
  have hchecks : protectedChecks (corrupt s.rate bits s.rng).1 = .ok () :=
    (protectedChecks_ok _).mpr ⟨by rw [corrupt_length, hlen, hilen], allBits_corrupt hbits _ _⟩
  have hcode (g : Nat) : codewordAt (corrupt s.rate bits s.rng).1 g =
      xorCodeword (codewordAt bits g) (codewordAt (flipStream s.rate s.ilen s.rng) g) :=
    codewordAt_xor (hlen ▸ bitAt_corrupt hbits s.rate s.rng) g
  rw [exec_sim hstream hrate] at h
  obtain rfl := Host.Outcome.next.inj h
  rw [State.setSource_status, successCommit_status, detFlag_okStatus, detected_of_checks hchecks, Bool.not_eq_true',
    allBlocksValid_eq_false_iff, corrupt_length, hlen]
  simp only [hcode, syndrome_xorCodeword, flipStream]

/-! ### VAL after SIM (R132) -/

/-- A SIM that succeeds leaves an output whose detection is `DET` (R126, R127). -/
theorem exec_sim_success {s t : State} {out : List Sym} (h : exec .sim s = .next t) (herr : errField t.status = 0#4)
    (hout : outputStream t = some out) : detFlag t.status = detected out := by
  rcases exec_next_cases h with ⟨e, rfl⟩ | ⟨bits, key, out', v, det, n, -, -, hr, rfl⟩
  · exact absurd ((errField_errorStatus e).symm.trans herr) (errorCode_ne_zero e)
  · obtain ⟨-, -, -, hdet, -⟩ := commandResult_sim_eq_ok_iff.mp hr
    rw [outputStream_setSource, outputStream_successCommit] at hout
    obtain rfl := Option.some.inj hout
    rw [State.setSource_status, successCommit_status, detFlag_okStatus, hdet]

/-- Settles O42: VAL makes the checks and gives the verdict that decided `DET`. -/
theorem valAfterSim : Obligations.ValAfterSim := by
  intro s t u out h herr hout hu
  have hdet := exec_sim_success h herr hout
  by_cases hlen : out.length % 11 = 0
  · cases hbits : allBits out with
    | true =>
      have hchecks : protectedChecks out = .ok () := (protectedChecks_ok out).mpr ⟨hlen, hbits⟩
      refine ⟨_, exec_val hu hchecks, ?_⟩
      simp [hlen, hdet, detected_of_checks hchecks]
    | false =>
      have hchecks := protectedChecks_of_nonBit hlen hbits
      refine ⟨_, exec_of_protectedChecks_error (by simp) hu hchecks, ?_⟩
      simp [hlen, hdet, detected_of_checks_error hchecks, errorCode]
  · have hchecks := protectedChecks_of_length hlen
    refine ⟨_, exec_of_protectedChecks_error (by simp) hu hchecks, ?_⟩
    simp [hlen, hdet, detected_of_checks_error hchecks, errorCode]

/-! ### Connecting a source (R72, R164, R169) -/

/-- The next draws of a source with fixed answers are these answers (R153). -/
theorem nextDraws_script (answers : List DrawValue) (asked : Nat) :
    nextDraws answers.length { script := answers, asked := asked } = answers := by
  rw [nextDraws_eq]
  refine List.ext_getElem? fun i => ?_
  rcases Nat.lt_or_ge i answers.length with hi | hi
  · rw [List.getElem?_map, List.getElem?_range hi, Option.map_some, List.getElem?_eq_getElem hi,
      drawFor_of_script (List.getElem?_eq_getElem hi)]
  · rw [List.getElem?_eq_none (by simpa using hi), List.getElem?_eq_none hi]

/-- Settles O47: the answers are the source's next draws, and each position of a SIM is decided by its draw. -/
theorem connectedSourceAnswers : Obligations.ConnectedSourceAnswers := by
  intro s answers
  let connected : RandomSource := { s.rng with script := answers }
  refine ⟨s.setSource connected, rfl, nextDraws_script answers s.rng.asked, rfl, by simp [connected, sourceAfter], rfl,
    fun bits hstream hrate _ => ?sim⟩
  case sim =>
    obtain ⟨u, out, hu, hout, holen, hsymbols, -⟩ := simFlipsByDraws (s.setSource connected) bits hstream hrate
    refine ⟨u, out, hu, hout, holen, fun i c a hi hc ha => ?_⟩
    have hdraw : drawFor connected i = a := drawFor_of_script ha
    rw [hsymbols i hi c hc, State.setSource_rng, hdraw, State.setSource_rate]

end Sys2Proof.Machine
end

section
/-! Proofs of the statements about the host's pseudo-operations (30_encoding.md R73): each is followed step by step, by
induction on the stream it moves. -/

namespace Sys2Proof.Machine

/-! ### Runs of several steps -/

theorem runSteps_succ {s t : State} (h : step s = .next t) (k : Nat) : runSteps (k + 1) s = runSteps k t := by
  have hcore : Sys2Proof.core.step s = .next t := h
  simp only [runSteps, Host.Core.run, hcore]
  rfl

theorem runSteps_add {m : Nat} {s t : State} (h : runSteps m s = .next t) (k : Nat) :
    runSteps (m + k) s = runSteps k t := by
  induction m generalizing s with
  | zero =>
    obtain rfl := Host.Outcome.next.inj h
    rw [Nat.zero_add]
  | succ m ih =>
    cases hs : step s with
    | next s' =>
      rw [runSteps_succ hs] at h
      rw [Nat.succ_add, runSteps_succ hs, ih h]
    | fault f => cases f
    | refused r =>
      have hcore : Sys2Proof.core.step s = .refused r := hs
      simp [runSteps, Host.Core.run, hcore] at h

/-- A run begins with the replacing of a pseudo-operation (log 11). -/
theorem runSteps_pseudo {s : State} {p : Pseudo} {rest ops : List HostOp} (hp : s.host.pending = .pseudo p :: rest)
    (hops : expand p (s.setPending rest) = some ops) (k : Nat) :
    runSteps (k + 1) s = runSteps k (s.setPending (ops ++ rest)) :=
  runSteps_succ (step_pseudo hp hops) k

/-- A run begins with an access, which leaves the rest of the list as it was. -/
theorem runSteps_access {s u : State} {a : Access} {rest : List HostOp}
    (h : performAccess a (s.setPending rest) = .next (u.setPending rest)) (k : Nat) :
    runSteps (k + 1) (s.setPending (.access a :: rest)) = runSteps k (u.setPending rest) :=
  runSteps_succ ((step_access (s := s.setPending (.access a :: rest)) rfl).trans h) k

theorem readRegister_rest {s : State} {n v : Nat} (hv : readRegister s n = some v) (ops : List HostOp) :
    performAccess (.readRegister n) (s.setPending ops) = .next ((s.hear v).setPending ops) := by
  have hv' : readRegister (s.setPending ops) n = some v := by
    rw [← hv]
    unfold readRegister
    split <;> rfl
  exact performAccess_readRegister hv'

theorem readCell_rest {s : State} {b : Buffer} {i : Nat} {v : Sym} (hi : i < capacity s.params b)
    (hv : Memory.read (s.buffer b) i = some v) (ops : List HostOp) :
    performAccess (.readCell b i) (s.setPending ops) = .next ((s.hear v.toNat).setPending ops) := by
  have hv' : Memory.read ((s.setPending ops).buffer b) i = some v := by
    rw [← hv]
    cases b <;> rfl
  exact performAccess_readCell (s := s.setPending ops) hi hv'

/-! ### A stream written to a buffer -/

/-- The buffer after a stream has been written to its cells from `i` on. -/
def Memory.writeStream : Memory → Nat → List Sym → Memory
  | m, _, [] => m
  | m, i, v :: vs => Memory.writeStream (Memory.write m i v) (i + 1) vs

/-- The cells before the stream keep their values. -/
theorem Memory.read_writeStream_of_lt (m : Memory) {i j : Nat} (vs : List Sym) (h : j < i) :
    Memory.read (Memory.writeStream m i vs) j = Memory.read m j := by
  induction vs generalizing m i with
  | nil => rfl
  | cons v vs ih => rw [Memory.writeStream, ih _ (by omega), Memory.read_write_other m v (by omega)]

/-- The cells past the stream keep their values. -/
theorem Memory.read_writeStream_of_ge (m : Memory) {i j : Nat} (vs : List Sym) (h : i + vs.length ≤ j) :
    Memory.read (Memory.writeStream m i vs) j = Memory.read m j := by
  induction vs generalizing m i with
  | nil => rfl
  | cons v vs ih =>
    rw [List.length_cons] at h
    rw [Memory.writeStream, ih _ (by omega), Memory.read_write_other m v (by omega)]

/-- The cells of the stream hold its symbols. -/
theorem Memory.read_writeStream (m : Memory) (i : Nat) (vs : List Sym) {k : Nat} (h : k < vs.length) :
    Memory.read (Memory.writeStream m i vs) (i + k) = vs[k]? := by
  induction vs generalizing m i k with
  | nil => simp at h
  | cons v vs ih =>
    cases k with
    | zero =>
      rw [Memory.writeStream, Memory.read_writeStream_of_lt _ vs (by omega), Nat.add_zero, Memory.read_write_same]
      rfl
    | succ k =>
      rw [Memory.writeStream, show i + (k + 1) = i + 1 + k by omega, ih _ _ (by simpa using h), List.getElem?_cons_succ]

/-- The region of the stream reads as the stream. -/
theorem Memory.readRegion_writeStream (m : Memory) (vs : List Sym) :
    Memory.readRegion (Memory.writeStream m 0 vs) 0 vs.length = some vs :=
  (Memory.readRegion_eq_some _ 0 _ vs).mpr ⟨rfl, fun _ => Memory.read_writeStream m 0 vs⟩

/-! ### The accesses that load a stream (R73) -/

/-- The state with the contents of a buffer the host can write replaced. -/
def State.setBuffer (s : State) : Buffer → Memory → State
  | .ibuf, m => { s with ibuf := m }
  | .kbuf, m => { s with kbuf := m }
  | .obuf, _ => s

/-- The host writes a cell of `IBUF` or `KBUF` (R41). -/
theorem writeCell_rest {s : State} {b : Buffer} (hb : b ≠ .obuf) {i : Nat} (v : Sym) (hi : i < capacity s.params b)
    (ops : List HostOp) :
    performAccess (.writeCell b i v) (s.setPending ops) =
      .next ((s.setBuffer b (Memory.write (s.buffer b) i v)).setPending ops) := by
  cases b with
  | ibuf => exact performAccess_writeIbuf (s := s.setPending ops) v hi
  | kbuf => exact performAccess_writeKbuf (s := s.setPending ops) v hi
  | obuf => exact absurd rfl hb

theorem capacity_setBuffer (s : State) (b b' : Buffer) (m : Memory) :
    capacity (s.setBuffer b m).params b' = capacity s.params b' := by cases b <;> rfl

/-- A stream is written to a buffer by a write of its first symbol and a write of the others. -/
theorem setBuffer_writeStream_cons (s : State) (b : Buffer) (i : Nat) (v : Sym) (vs : List Sym) :
    (s.setBuffer b (Memory.write (s.buffer b) i v)).setBuffer b
        (Memory.writeStream ((s.setBuffer b (Memory.write (s.buffer b) i v)).buffer b) (i + 1) vs) =
      s.setBuffer b (Memory.writeStream (s.buffer b) i (v :: vs)) := by cases b <;> rfl

/-- The writes of a load leave the stream in its buffer (R73). -/
theorem runSteps_writesFrom {b : Buffer} (hb : b ≠ .obuf) (vs : List Sym) (s : State) {i : Nat} (ops : List HostOp)
    (hcap : i + vs.length ≤ capacity s.params b) :
    runSteps vs.length (s.setPending (writesFrom b i vs ++ ops)) =
      .next ((s.setBuffer b (Memory.writeStream (s.buffer b) i vs)).setPending ops) := by
  induction vs generalizing s i with
  | nil => cases b <;> rfl
  | cons v vs ih =>
    rw [List.length_cons] at hcap
    let written := s.setBuffer b (Memory.write (s.buffer b) i v)
    have hi : i < capacity s.params b := by omega
    have hrest : i + 1 + vs.length ≤ capacity written.params b := by
      rw [capacity_setBuffer]
      omega
    calc runSteps (vs.length + 1) (s.setPending (.access (.writeCell b i v) :: (writesFrom b (i + 1) vs ++ ops)))
      _ = runSteps vs.length (written.setPending (writesFrom b (i + 1) vs ++ ops)) :=
        runSteps_access (writeCell_rest hb v hi _) _
      _ = .next ((written.setBuffer b (Memory.writeStream (written.buffer b) (i + 1) vs)).setPending ops) :=
        ih written hrest
      _ = _ := by rw [setBuffer_writeStream_cons]

/-- A length within a capacity fits the length registers (R5). -/
theorem lt_two_pow_lenW {p : Params} {n : Nat} (h : n ≤ p.nMax ∨ n ≤ p.kMax) : n < 2 ^ lenW p := by
  have hmax : max p.nMax p.kMax < 2 ^ lenW p := Nat.lt_log2_self
  omega

/-- The steps of a load: one to begin, the writes of the cells, and the write of the length (R73; log 11). -/
theorem runSteps_load {b : Buffer} (hb : b ≠ .obuf) {s u : State} {p : Pseudo} {vs : List Sym} {number : Nat}
    {rest : List HostOp} (hp : s.host.pending = .pseudo p :: rest)
    (hops : expand p (s.setPending rest) =
      some (writesFrom b 0 vs ++ [.access (.writeRegister number vs.length)])) (hcap : vs.length ≤ capacity s.params b)
    (hlength : performAccess (.writeRegister number vs.length)
      ((s.setBuffer b (Memory.writeStream (s.buffer b) 0 vs)).setPending rest) = .next (u.setPending rest)) :
    runSteps (vs.length + 2) s = .next (u.setPending rest) := by
  rw [runSteps_pseudo hp hops, List.append_assoc,
    runSteps_add (runSteps_writesFrom hb vs s _ (by rwa [Nat.zero_add]))]
  exact runSteps_access hlength 0

/-- Settles O43: both loads, each with the length register of its buffer. -/
theorem loadsFillTheOperands : Obligations.LoadsFillTheOperands := by
  refine ⟨fun s stream rest hp hcap => ?ldi, fun s key rest hp hcap => ?ldk⟩
  case ldi =>
    let filled := (s.setBuffer .ibuf (Memory.writeStream s.ibuf 0 stream)).setIlen stream.length
    refine ⟨filled.setPending rest, ?_, Memory.readRegion_writeStream s.ibuf stream, rfl,
      fun j hj => Memory.read_writeStream_of_ge s.ibuf stream (by omega), rfl⟩
    exact runSteps_load (b := .ibuf) (by decide) hp rfl hcap
      (performAccess_writeIlen (lt_two_pow_lenW (.inl hcap)) hcap)
  case ldk =>
    let filled := (s.setBuffer .kbuf (Memory.writeStream s.kbuf 0 key)).setKlen key.length
    refine ⟨filled.setPending rest, ?_, Memory.readRegion_writeStream s.kbuf key, rfl,
      fun j hj => Memory.read_writeStream_of_ge s.kbuf key (by omega), rfl⟩
    exact runSteps_load (b := .kbuf) (by decide) hp rfl hcap
      (performAccess_writeKlen (lt_two_pow_lenW (.inr hcap)) hcap)

/-! ### The accesses that read the output stream (R73) -/

/-- The host has heard these values, in their order (log 5). -/
def State.hearAll (s : State) (values : List Nat) : State :=
  { s with host := { s.host with heard := s.host.heard ++ values } }

theorem hearAll_nil (s : State) : s.hearAll [] = s := by simp [State.hearAll]

theorem hearAll_hear (s : State) (v : Nat) (values : List Nat) :
    (s.hear v).hearAll values = s.hearAll (v :: values) := by
  simp [State.hearAll, State.hear]

/-- The symbols of `OBUF` from cell `i` on (R29). -/
def obufHolds (s : State) (i : Nat) (vs : List Sym) : Prop := ∀ k, k < vs.length → Memory.read s.obuf (i + k) = vs[k]?

theorem obufHolds_cons {s : State} {i : Nat} {v : Sym} {vs : List Sym} (h : obufHolds s i (v :: vs)) :
    Memory.read s.obuf i = some v ∧ obufHolds s (i + 1) vs := by
  refine ⟨h 0 (by simp), fun k hk => ?_⟩
  have hcell := h (k + 1) (by simpa using hk)
  rwa [List.getElem?_cons_succ, show i + (k + 1) = i + 1 + k by omega] at hcell

/-- The output stream is what `OBUF` holds below `OLEN` (R23). -/
theorem outputStream_holds {s : State} {out : List Sym} (h : outputStream s = some out) :
    out.length = s.olen ∧ obufHolds s 0 out := by
  obtain ⟨hlen, hcells⟩ := (Memory.readRegion_eq_some s.obuf 0 s.olen out).mp h
  exact ⟨hlen, fun k hk => hcells k (hlen ▸ hk)⟩

/-- The reads of the cells of `OBUF` from `i` on (R73). -/
def readsFrom (i n : Nat) : List HostOp := (List.range' i n).map fun j => .access (.readCell .obuf j)

/-- The reads of RDO: the host hears the symbols (R73). -/
theorem runSteps_readsFrom (vs : List Sym) (s : State) {i : Nat} (ops : List HostOp)
    (hcap : i + vs.length ≤ s.params.nMax) (hobuf : obufHolds s i vs) :
    runSteps vs.length (s.setPending (readsFrom i vs.length ++ ops)) =
      .next ((s.hearAll (vs.map (·.toNat))).setPending ops) := by
  induction vs generalizing s i with
  | nil => rw [List.map_nil, hearAll_nil]; rfl
  | cons v vs ih =>
    obtain ⟨hv, hvs⟩ := obufHolds_cons hobuf
    rw [List.length_cons] at hcap
    have hi : i < s.params.nMax := by omega
    calc runSteps (vs.length + 1)
          (s.setPending (.access (.readCell .obuf i) :: (readsFrom (i + 1) vs.length ++ ops)))
      _ = runSteps vs.length ((s.hear v.toNat).setPending (readsFrom (i + 1) vs.length ++ ops)) :=
        runSteps_access (readCell_rest (b := .obuf) hi hv _) _
      _ = .next (((s.hear v.toNat).hearAll (vs.map (·.toNat))).setPending ops) :=
        ih (s.hear v.toNat) (show i + 1 + vs.length ≤ s.params.nMax by omega) hvs
      _ = _ := by rw [hearAll_hear, List.map_cons]

/-- The reads and writes of MVO: the host hears the symbols and leaves them in `IBUF` (R73). -/
theorem runSteps_copiesFrom (vs : List Sym) (s : State) {i : Nat} (ops : List HostOp)
    (hcap : i + vs.length ≤ s.params.nMax) (hobuf : obufHolds s i vs) :
    runSteps (2 * vs.length) (s.setPending (copiesFrom i vs ++ ops)) =
      .next (((s.setBuffer .ibuf (Memory.writeStream s.ibuf i vs)).hearAll (vs.map (·.toNat))).setPending ops) := by
  induction vs generalizing s i with
  | nil => rw [List.map_nil, hearAll_nil]; rfl
  | cons v vs ih =>
    obtain ⟨hv, hvs⟩ := obufHolds_cons hobuf
    rw [List.length_cons] at hcap
    have hi : i < s.params.nMax := by omega
    let copied := (s.hear v.toNat).setBuffer .ibuf (Memory.write s.ibuf i v)
    calc runSteps (2 * vs.length + 2)
          (s.setPending (.access (.readCell .obuf i) ::
            (.access (.writeCell .ibuf i v) :: (copiesFrom (i + 1) vs ++ ops))))
      _ = runSteps (2 * vs.length + 1)
          ((s.hear v.toNat).setPending (.access (.writeCell .ibuf i v) :: (copiesFrom (i + 1) vs ++ ops))) :=
        runSteps_access (readCell_rest (b := .obuf) hi hv _) _
      _ = runSteps (2 * vs.length) (copied.setPending (copiesFrom (i + 1) vs ++ ops)) :=
        runSteps_access (writeCell_rest (s := s.hear v.toNat) (b := .ibuf) (by decide) v hi _) _
      _ = .next (((copied.setBuffer .ibuf (Memory.writeStream copied.ibuf (i + 1) vs)).hearAll
          (vs.map (·.toNat))).setPending ops) :=
        ih copied (show i + 1 + vs.length ≤ s.params.nMax by omega) hvs
      _ = _ := by rw [List.map_cons, ← hearAll_hear]; rfl

/-- Settles O44: the read of the length, the copies, and the write of the length. -/
theorem moveOutputToInput : Obligations.MoveOutputToInput := by
  intro s out rest hp hout hcap
  obtain ⟨hlen, hobuf⟩ := outputStream_holds hout
  let heard := s.hear s.olen
  let moved := (heard.setBuffer .ibuf (Memory.writeStream s.ibuf 0 out)).hearAll (out.map (·.toNat))
  have hops : expand .mvo (s.setPending rest) =
      some (.access (.readRegister 4) :: copiesFrom 0 out ++ [.access (.writeRegister 2 s.olen)]) := by
    have hout' : outputStream (s.setPending rest) = some out := hout
    simp [expand, hout']
  have hcopies := runSteps_copiesFrom out heard (.access (.writeRegister 2 s.olen) :: rest)
    (show 0 + out.length ≤ s.params.nMax by omega) hobuf
  have hfits : s.olen < 2 ^ lenW s.params := lt_two_pow_lenW (.inl hcap)
  rw [hlen] at hcopies
  refine ⟨(moved.setIlen s.olen).setPending rest, ?run, hlen ▸ Memory.readRegion_writeStream s.ibuf out, rfl,
    fun j hj => Memory.read_writeStream_of_ge s.ibuf out (by omega), ?heard, rfl⟩
  case heard =>
    rw [State.setPending_host]
    simp [moved, heard, State.hearAll, State.hear, State.setBuffer, State.setIlen]
  case run =>
    calc runSteps (2 * s.olen + 3) s
      _ = runSteps (2 * s.olen + 2) (s.setPending (.access (.readRegister 4) ::
          (copiesFrom 0 out ++ .access (.writeRegister 2 s.olen) :: rest))) := by
        rw [runSteps_pseudo hp hops (2 * s.olen + 2)]
        simp only [List.cons_append, List.append_assoc, List.nil_append]
      _ = runSteps (2 * s.olen + 1)
          (heard.setPending (copiesFrom 0 out ++ .access (.writeRegister 2 s.olen) :: rest)) :=
        runSteps_access (readRegister_rest rfl _) _
      _ = runSteps 1 (moved.setPending (.access (.writeRegister 2 s.olen) :: rest)) := runSteps_add hcopies 1
      _ = .next ((moved.setIlen s.olen).setPending rest) :=
        runSteps_access (performAccess_writeIlen (s := moved.setPending rest) (v := s.olen) hfits hcap) 0

/-- Settles O45: RDO reads the length and the cells, RDS and LDR are one access each. -/
theorem readsAndRate : Obligations.ReadsAndRate := by
  refine ⟨fun s out rest hp hout hcap => ?rdo, fun s rest hp => ?rds, fun s r rest hp => ?ldr⟩
  case rdo =>
    obtain ⟨hlen, hobuf⟩ := outputStream_holds hout
    let heard := s.hear s.olen
    have hreads := runSteps_readsFrom out heard rest (show 0 + out.length ≤ s.params.nMax by omega) hobuf
    have hops : expand .rdo (s.setPending rest) = some (.access (.readRegister 4) :: readsFrom 0 s.olen) := by
      rw [readsFrom, ← List.range_eq_range']
      rfl
    calc runSteps (s.olen + 2) s
      _ = runSteps (s.olen + 1) (s.setPending (.access (.readRegister 4) :: (readsFrom 0 s.olen ++ rest))) :=
        runSteps_pseudo hp hops _
      _ = runSteps s.olen (heard.setPending (readsFrom 0 s.olen ++ rest)) :=
        runSteps_access (readRegister_rest rfl _) _
      _ = .next ((heard.hearAll (out.map (·.toNat))).setPending rest) := hlen ▸ hreads
      _ = _ := by rw [hearAll_hear]; rfl
  case rds =>
    calc runSteps 2 s
      _ = runSteps 1 (s.setPending (.access (.readRegister 1) :: rest)) := runSteps_pseudo hp rfl _
      _ = .next ((s.hear s.status.toNat).setPending rest) := runSteps_access (readRegister_rest rfl _) 0
  case ldr =>
    calc runSteps 2 s
      _ = runSteps 1 (s.setPending (.access (.writeRegister 5 r.toNat) :: rest)) := runSteps_pseudo hp rfl _
      _ = .next ((s.setRate r).setPending rest) := runSteps_access (performAccess_writeRate _ r) 0

end Sys2Proof.Machine
end
